-- ==== Sys2Proof/Word.lean ====
section
/-! DEFINITION. The plain value types of the YKJM-16 block (spec/00_scope.md R7, R9, R10, R12).
The helpers that cut, extend or join bits stand in Sys2Proof/Decode.lean and
Sys2Proof/Machine/Immediates.lean. -/

namespace Sys2Proof

/-- A register value, data-memory word, ALU result, data address or program-counter value:
32 bits, two's complement (R7 `XLEN` and `PCW`, R10). -/
abbrev Word := BitVec 32

/-- The 16-bit instruction word (R7 `ILEN`, R70). -/
abbrev InstrWord := BitVec 16

/-- A register index, a 3-bit field (R13, R26): every value names one of the eight registers. -/
abbrev RegIdx := BitVec 3

/-- A piece of source or hex text, as its characters. -/
abbrev Text := List Char

end Sys2Proof
end

