-- ==== Sys2Proof/Syntax.lean ====
section
/-! DEFINITION. The instructions of YKJM-16 (spec/30_encoding.md R70 to R78), the instruction records
of the assembler and loader (spec/00_scope.md R14), and the failures that come before a run
(spec/60_exceptions.md R212). -/

namespace Sys2Proof

/-- The four field layouts of the instruction word (R71 to R74). -/
inductive Format where
  | r
  | i
  | b
  | j
  deriving DecidableEq, Repr

/-- The 32 mnemonics, in the order of spec/opcode_table.json (R78). -/
inductive Mnemonic where
  | and
  | or
  | xor
  | add
  | sub
  | slt
  | sltu
  | sll
  | srl
  | sra
  | ror
  | andi
  | candi
  | ori
  | xori
  | addi
  | slti
  | sltiu
  | lw
  | sw
  | beqz
  | bnez
  | bltz
  | bgez
  | bgtz
  | blez
  | jr
  | jalr
  | j
  | jal
  | set
  | sset
  deriving DecidableEq, Repr

/-- The instructions: one constructor per row of spec/opcode_table.json.
The operands are the raw fields the decoder extracts (R13, R90), the assembly's destination first
(R99).  Every field value of every format is meaningful (R74), so no term is ill formed. -/
inductive Instr where
  /-- `and $rd, $rs, $rt` (R120). -/
  | and (rd rs rt : RegIdx)
  /-- `or $rd, $rs, $rt` (R121). -/
  | or (rd rs rt : RegIdx)
  /-- `xor $rd, $rs, $rt` (R122). -/
  | xor (rd rs rt : RegIdx)
  /-- `add $rd, $rs, $rt` (R123). -/
  | add (rd rs rt : RegIdx)
  /-- `sub $rd, $rs, $rt` (R124). -/
  | sub (rd rs rt : RegIdx)
  /-- `slt $rd, $rs, $rt` (R125). -/
  | slt (rd rs rt : RegIdx)
  /-- `sltu $rd, $rs, $rt` (R126). -/
  | sltu (rd rs rt : RegIdx)
  /-- `sll $rt, $rs, imm5` (R140). -/
  | sll (rt rs : RegIdx) (imm5 : BitVec 5)
  /-- `srl $rt, $rs, imm5` (R141). -/
  | srl (rt rs : RegIdx) (imm5 : BitVec 5)
  /-- `sra $rt, $rs, imm5` (R142). -/
  | sra (rt rs : RegIdx) (imm5 : BitVec 5)
  /-- `ror $rt, $rs, imm5` (R143). -/
  | ror (rt rs : RegIdx) (imm5 : BitVec 5)
  /-- `andi $rt, $rs, imm5` (R144). -/
  | andi (rt rs : RegIdx) (imm5 : BitVec 5)
  /-- `candi $rt, $rs, imm5` (R145). -/
  | candi (rt rs : RegIdx) (imm5 : BitVec 5)
  /-- `ori $rt, $rs, imm5` (R146). -/
  | ori (rt rs : RegIdx) (imm5 : BitVec 5)
  /-- `xori $rt, $rs, imm5` (R147). -/
  | xori (rt rs : RegIdx) (imm5 : BitVec 5)
  /-- `addi $rt, $rs, imm5` (R148). -/
  | addi (rt rs : RegIdx) (imm5 : BitVec 5)
  /-- `slti $rt, $rs, imm5` (R149). -/
  | slti (rt rs : RegIdx) (imm5 : BitVec 5)
  /-- `sltiu $rt, $rs, imm5` (R150). -/
  | sltiu (rt rs : RegIdx) (imm5 : BitVec 5)
  /-- `lw $rt, imm5($rs)` (R170). -/
  | lw (rt rs : RegIdx) (imm5 : BitVec 5)
  /-- `sw $rt, imm5($rs)` (R171). -/
  | sw (rt rs : RegIdx) (imm5 : BitVec 5)
  /-- `beqz $rs, imm8|label` (R180). -/
  | beqz (rs : RegIdx) (imm8 : BitVec 8)
  /-- `bnez $rs, imm8|label` (R181). -/
  | bnez (rs : RegIdx) (imm8 : BitVec 8)
  /-- `bltz $rs, imm8|label` (R182). -/
  | bltz (rs : RegIdx) (imm8 : BitVec 8)
  /-- `bgez $rs, imm8|label` (R183). -/
  | bgez (rs : RegIdx) (imm8 : BitVec 8)
  /-- `bgtz $rs, imm8|label` (R184). -/
  | bgtz (rs : RegIdx) (imm8 : BitVec 8)
  /-- `blez $rs, imm8|label` (R185). -/
  | blez (rs : RegIdx) (imm8 : BitVec 8)
  /-- `jr $rs, imm8` (R186). -/
  | jr (rs : RegIdx) (imm8 : BitVec 8)
  /-- `jalr $rs, imm8` (R187). -/
  | jalr (rs : RegIdx) (imm8 : BitVec 8)
  /-- `j imm11|label` (R188). -/
  | j (imm11 : BitVec 11)
  /-- `jal imm11|label` (R189). -/
  | jal (imm11 : BitVec 11)
  /-- `set imm11` (R200). -/
  | set (imm11 : BitVec 11)
  /-- `sset imm11` (R201). -/
  | sset (imm11 : BitVec 11)
  deriving DecidableEq, Repr

/-- The mnemonic of an instruction. -/
def Instr.mnemonic : Instr → Mnemonic
  | .and _ _ _ => .and
  | .or _ _ _ => .or
  | .xor _ _ _ => .xor
  | .add _ _ _ => .add
  | .sub _ _ _ => .sub
  | .slt _ _ _ => .slt
  | .sltu _ _ _ => .sltu
  | .sll _ _ _ => .sll
  | .srl _ _ _ => .srl
  | .sra _ _ _ => .sra
  | .ror _ _ _ => .ror
  | .andi _ _ _ => .andi
  | .candi _ _ _ => .candi
  | .ori _ _ _ => .ori
  | .xori _ _ _ => .xori
  | .addi _ _ _ => .addi
  | .slti _ _ _ => .slti
  | .sltiu _ _ _ => .sltiu
  | .lw _ _ _ => .lw
  | .sw _ _ _ => .sw
  | .beqz _ _ => .beqz
  | .bnez _ _ => .bnez
  | .bltz _ _ => .bltz
  | .bgez _ _ => .bgez
  | .bgtz _ _ => .bgtz
  | .blez _ _ => .blez
  | .jr _ _ => .jr
  | .jalr _ _ => .jalr
  | .j _ => .j
  | .jal _ => .jal
  | .set _ => .set
  | .sset _ => .sset

/-- The format each mnemonic belongs to (R78; the memberships are R79's). -/
def Mnemonic.format : Mnemonic → Format
  | .and => .r
  | .or => .r
  | .xor => .r
  | .add => .r
  | .sub => .r
  | .slt => .r
  | .sltu => .r
  | .sll => .i
  | .srl => .i
  | .sra => .i
  | .ror => .i
  | .andi => .i
  | .candi => .i
  | .ori => .i
  | .xori => .i
  | .addi => .i
  | .slti => .i
  | .sltiu => .i
  | .lw => .i
  | .sw => .i
  | .beqz => .b
  | .bnez => .b
  | .bltz => .b
  | .bgez => .b
  | .bgtz => .b
  | .blez => .b
  | .jr => .b
  | .jalr => .b
  | .j => .j
  | .jal => .j
  | .set => .j
  | .sset => .j

/-- Every mnemonic, in table order. -/
def Mnemonic.all : List Mnemonic :=
  [.and, .or, .xor, .add, .sub, .slt, .sltu, .sll]
  ++ [.srl, .sra, .ror, .andi, .candi, .ori, .xori, .addi]
  ++ [.slti, .sltiu, .lw, .sw, .beqz, .bnez, .bltz, .bgez]
  ++ [.bgtz, .blez, .jr, .jalr, .j, .jal, .set, .sset]

/-- The raw fields of a word, as the decoder unit outputs them (R32, R90).
Only those of the word's own format are meaningful. -/
structure Fields where
  rs    : RegIdx
  rt    : RegIdx
  rd    : RegIdx
  func  : BitVec 2
  imm5  : BitVec 5
  imm8  : BitVec 8
  imm11 : BitVec 11
  deriving DecidableEq, Repr

/-- A decoded record of the loaded program (R14, R88): the instruction, the line number and the
step number it was decoded at. -/
structure Loaded where
  instr  : Instr
  lineNo : Nat
  stepNo : Nat
  deriving DecidableEq, Repr

/-- An instruction record of the assembler (R14): mnemonic, source line, step, the operand fields
of its format (a field outside it is zero), and the immediate as its operand VALUE, or a label name
in its place (`jumpto`). -/
structure Record where
  mn     : Mnemonic
  lineNo : Nat
  stepNo : Nat
  rs     : RegIdx := 0
  rt     : RegIdx := 0
  rd     : RegIdx := 0
  imm    : Int := 0
  jumpto : Option Text := none
  deriving DecidableEq, Repr

/-- The failures that end an assembly, an encoding or a load before a run (R212, codes 1 to 6).
Each aborts its pass at its first occurrence, with nothing produced. -/
inductive Failure where
  /-- Code 1: a malformed source line (its line number) or hex token (its line index). -/
  | syntaxException (line : Nat)
  /-- Code 2: too few or too many operands. -/
  | arityMismatch (line expected actual : Nat)
  /-- Code 3: an operand of the wrong kind, an unparsable numeral, a value out of range. -/
  | malformedOperand (line : Nat) (token : Text)
  /-- Code 4: a word whose (opcode, func) has no mnemonic (R81). -/
  | invalidInstructionKind (word : InstrWord) (line step : Nat)
  /-- Code 5: a branch or jump names a label absent from the label table. -/
  | labelNotFound (name : Text) (line : Nat)
  /-- Code 6: a resolved offset or immediate does not fit its field. -/
  | rangeError (line : Nat)
  /-- The encoder was given a record whose target is still a label.  R91 says it cannot be encoded
  and names no outcome; pass 2 never passes one on.  DESIGN CHOICE, notes/assumptions/14.md. -/
  | unresolvedTarget (line : Nat)
  deriving DecidableEq, Repr

end Sys2Proof
end

