-- ==== Sys2Proof/Config.lean ====
section
/-! DEFINITION. The parameters of the model (spec/00_scope.md R7) as plain data, and the free values.
`ILEN`, `NREG`, `XLEN` and `PCW` are the widths of Sys2Proof/Word.lean.  `INIT_R` and `INIT_M` are arguments of
the start of a run (Machine/HostInterface.lean), and `T_GRACE` and `T_KILL` are those of the watchdog there.
The default values of the parameters stand in Machine/Params.lean and Decode.lean. -/

namespace Sys2Proof

/-- A run of data-memory addresses that exist: `base, base+1, …`, `words` of them. -/
structure AddrRange where
  base  : Int
  words : Nat
  deriving DecidableEq, Repr

/-- `IMM5_SIGNED` (R7, R84): whether imm5 is sign-extended, per I-format mnemonic.
The four shifts are no parameter: the source fixes an unsigned count. -/
structure Imm5Signed where
  andi  : Bool
  candi : Bool
  ori   : Bool
  xori  : Bool
  addi  : Bool
  slti  : Bool
  sltiu : Bool
  lw    : Bool
  sw    : Bool
  deriving DecidableEq, Repr

/-- The parameters a run depends on (R7).  State holds them, so that a claim about every state is a
claim about every choice of them. -/
structure Params where
  /-- `MEM_VALID`: the data addresses that exist, as a list of ranges (any set of 32-bit addresses
  is one). -/
  memValid     : List AddrRange
  /-- `SLTU_UNSIGNED`: SLTU and SLTIU compare unsigned. -/
  sltuUnsigned : Bool
  /-- `IMM5_SIGNED`. -/
  imm5Signed   : Imm5Signed
  deriving DecidableEq, Repr

/-- `OPMAP` (R7, R78): the opcode number of each mnemonic and, for R-format, its func number.
It is a parameter of the codec, not of a run: the program store holds decoded records. -/
structure OpMap where
  opcode : Mnemonic → BitVec 5
  func   : Mnemonic → BitVec 2

/-- Free value: the PC of the n-th killed run, a draw under no law (R222, U2). -/
opaque Config.killedPc : Nat → Word

/-- Free value: the registers of the n-th killed run (R222, U2). -/
opaque Config.killedRegs : Nat → Vector Word 8

/-- Free value: the data-memory contents of the n-th killed run, as cells (R222, U2). -/
opaque Config.killedMem : Nat → List (Nat × Word)

end Sys2Proof
end

