-- ==== Sys2Proof/Machine/Immediates.lean ====
section
/-! DEFINITION. Immediate operands: extension (spec/00_scope.md R11, R13), the per-mnemonic extension
table and the operand ranges (spec/30_encoding.md R84 to R87). -/

namespace Sys2Proof

/-- `zext_5` (R11). -/
def zext5 (v : BitVec 5) : Word := v.setWidth 32

/-- `sext_5` (R11): -16..15. -/
def sext5 (v : BitVec 5) : Word := v.signExtend 32

/-- `sext_8` (R11): -128..127. -/
def sext8 (v : BitVec 8) : Word := v.signExtend 32

/-- `zext_11` (R11): 0..2047. -/
def zext11 (v : BitVec 11) : Word := v.setWidth 32

/-- `sext_11` (R11): -1024..1023. -/
def sext11 (v : BitVec 11) : Word := v.signExtend 32

/-- The default `IMM5_SIGNED` (R84): the logical immediates zero-extend, the others sign-extend. -/
def Imm5Signed.default : Imm5Signed where
  andi  := false
  candi := false
  ori   := false
  xori  := false
  addi  := true
  slti  := true
  sltiu := true
  lw    := true
  sw    := true

/-- `IMM5_SIGNED(mnemonic)` (R84).  A shift count is unsigned whatever the parameter; a mnemonic
outside I-format has no imm5. -/
def Imm5Signed.signed (sg : Imm5Signed) : Mnemonic → Bool
  | .andi => sg.andi
  | .candi => sg.candi
  | .ori => sg.ori
  | .xori => sg.xori
  | .addi => sg.addi
  | .slti => sg.slti
  | .sltiu => sg.sltiu
  | .lw => sg.lw
  | .sw => sg.sw
  | _ => false

/-- `ext5(imm5)` (R13). -/
def ext5 (sg : Imm5Signed) (m : Mnemonic) (v : BitVec 5) : Word :=
  if sg.signed m then sext5 v else zext5 v

/-- The inclusive range of a mnemonic's immediate operand value (R84, R85, R86); none in R-format. -/
def immRange (sg : Imm5Signed) (m : Mnemonic) : Option (Int × Int) :=
  match m.format with
  | .r => none
  | .i => if sg.signed m then some (-16, 15) else some (0, 31)
  | .b => some (-128, 127)
  | .j =>
    match m with
    | .set => some (0, 2047)
    | .sset => some (0, 2047)
    | _ => some (-1024, 1023)

/-- The operand value lies in the mnemonic's range; without an immediate there is nothing to check. -/
def immInRange (sg : Imm5Signed) (m : Mnemonic) (v : Int) : Bool :=
  match immRange sg m with
  | none => true
  | some (lo, hi) => decide (lo ≤ v) && decide (v ≤ hi)

/-- The instructions whose target may be a label (R98). -/
def Mnemonic.takesLabel : Mnemonic → Bool
  | .beqz | .bnez | .bltz | .bgez | .bgtz | .blez | .j | .jal => true
  | _ => false

end Sys2Proof
end

