-- ==== Sys2Proof/WellFormed.lean ====
section
/-! DEFINITION. Well-formedness of the terms that can be ill formed.  An `Instr` cannot (spec/30_encoding.md
R74: every value of every field is meaningful); an assembler `Record` can: its immediate is an
operand value (R91), its target may still be a label (R98, R106). -/

namespace Sys2Proof

/-- The immediate's operand value fits the mnemonic's range (R91). -/
def Record.immOk (sg : Imm5Signed) (r : Record) : Bool := immInRange sg r.mn r.imm

/-- A field outside the mnemonic's format is zero (R14: a record holds the fields of its format). -/
def Record.fieldsOk (r : Record) : Bool :=
  match r.mn.format with
  | .r => decide (r.imm = 0)
  | .i => decide (r.rd = 0)
  | .b => decide (r.rt = 0) && decide (r.rd = 0)
  | .j => decide (r.rs = 0) && decide (r.rt = 0) && decide (r.rd = 0)

/-- A record the encoder accepts (R91): resolved, in range, its own format's fields only. -/
def Record.wf (sg : Imm5Signed) (r : Record) : Bool :=
  r.jumpto.isNone && r.immOk sg && r.fieldsOk

/-- A record pass 2 can resolve (R98, R106): its mnemonic takes a label, and no immediate stands
beside the label. -/
def Record.labelWf (r : Record) : Bool :=
  r.jumpto.isSome && r.mn.takesLabel && decide (r.imm = 0) && r.fieldsOk

end Sys2Proof
end

