-- ==== Sys2Proof/Decode.lean ====
section
/-! DEFINITION. The instruction codec (spec/30_encoding.md sections 1 to 6): word fields, the reference
opcode map, the decoder, and after it the encoder written from the same tables. -/

namespace Sys2Proof

/-! ### Fields of a word (R9, R71 to R74) -/

/-- `w[15:11]` (R70). -/
def opcodeOf (w : InstrWord) : BitVec 5 := w.extractLsb' 11 5

/-- Every field of every format, cut from the word (R71 to R74, R88). -/
def Fields.ofWord (w : InstrWord) : Fields where
  rs    := w.extractLsb' 8 3
  rt    := w.extractLsb' 5 3
  rd    := w.extractLsb' 2 3
  func  := w.extractLsb' 0 2
  imm5  := w.extractLsb' 0 5
  imm8  := w.extractLsb' 0 8
  imm11 := w.extractLsb' 0 11

/-- The format of an opcode (R75); none for 2, 3, 18 and 19. -/
def fmt (op : BitVec 5) : Option Format :=
  if op.toNat ≤ 1 then some .r
  else if 4 ≤ op.toNat ∧ op.toNat ≤ 17 then some .i
  else if 20 ≤ op.toNat ∧ op.toNat ≤ 27 then some .b
  else if 28 ≤ op.toNat then some .j
  else none

/-! ### The opcode map (R77, R78) -/

/-- Opcode numbers of the reference map (R78). -/
def referenceOpcode : Mnemonic → BitVec 5
  | .and => 0
  | .or => 0
  | .xor => 0
  | .add => 1
  | .sub => 1
  | .slt => 1
  | .sltu => 1
  | .sll => 4
  | .srl => 5
  | .sra => 6
  | .ror => 7
  | .andi => 8
  | .candi => 9
  | .ori => 10
  | .xori => 11
  | .addi => 12
  | .slti => 13
  | .sltiu => 14
  | .lw => 15
  | .sw => 16
  | .beqz => 20
  | .bnez => 21
  | .bltz => 22
  | .bgez => 23
  | .bgtz => 24
  | .blez => 25
  | .jr => 26
  | .jalr => 27
  | .j => 28
  | .jal => 29
  | .set => 30
  | .sset => 31

/-- Function numbers of the reference map (R78); R-format only, other mnemonics have none. -/
def referenceFunc : Mnemonic → BitVec 2
  | .and => 0
  | .or => 2
  | .xor => 3
  | .add => 0
  | .sub => 1
  | .slt => 2
  | .sltu => 3
  | _ => 0

/-- The reference opcode map, the default of the parameter `OPMAP` (R78). -/
def OpMap.reference : OpMap := ⟨referenceOpcode, referenceFunc⟩

/-- Two mnemonics share a key: the same opcode and, in R-format, the same func (R76). -/
def OpMap.sameKey (om : OpMap) (m n : Mnemonic) : Prop :=
  om.opcode m = om.opcode n ∧ (m.format = .r → om.func m = om.func n)

/-- A map consistent with R75 to R77: each mnemonic's opcode lies in its own format's range, and the
key is unique. -/
def OpMap.Consistent (om : OpMap) : Prop :=
  (∀ m, fmt (om.opcode m) = some m.format) ∧ ∀ m n, om.sameKey m n → m = n

/-- `OPMAP^-1` (R88): the mnemonic of format `fm` with this opcode and, in R-format, this func. -/
def OpMap.find (om : OpMap) (fm : Format) (op : BitVec 5) (fn : BitVec 2) : Option Mnemonic :=
  Mnemonic.all.find? fun m =>
    decide (m.format = fm) && decide (om.opcode m = op) && (decide (fm ≠ .r) || decide (om.func m = fn))

/-! ### The decoder (R32 `DEC`, R88) -/

/-- The instruction of a mnemonic over its format's fields. -/
def Mnemonic.build (m : Mnemonic) (f : Fields) : Instr :=
  match m with
  | .and => .and f.rd f.rs f.rt
  | .or => .or f.rd f.rs f.rt
  | .xor => .xor f.rd f.rs f.rt
  | .add => .add f.rd f.rs f.rt
  | .sub => .sub f.rd f.rs f.rt
  | .slt => .slt f.rd f.rs f.rt
  | .sltu => .sltu f.rd f.rs f.rt
  | .sll => .sll f.rt f.rs f.imm5
  | .srl => .srl f.rt f.rs f.imm5
  | .sra => .sra f.rt f.rs f.imm5
  | .ror => .ror f.rt f.rs f.imm5
  | .andi => .andi f.rt f.rs f.imm5
  | .candi => .candi f.rt f.rs f.imm5
  | .ori => .ori f.rt f.rs f.imm5
  | .xori => .xori f.rt f.rs f.imm5
  | .addi => .addi f.rt f.rs f.imm5
  | .slti => .slti f.rt f.rs f.imm5
  | .sltiu => .sltiu f.rt f.rs f.imm5
  | .lw => .lw f.rt f.rs f.imm5
  | .sw => .sw f.rt f.rs f.imm5
  | .beqz => .beqz f.rs f.imm8
  | .bnez => .bnez f.rs f.imm8
  | .bltz => .bltz f.rs f.imm8
  | .bgez => .bgez f.rs f.imm8
  | .bgtz => .bgtz f.rs f.imm8
  | .blez => .blez f.rs f.imm8
  | .jr => .jr f.rs f.imm8
  | .jalr => .jalr f.rs f.imm8
  | .j => .j f.imm11
  | .jal => .jal f.imm11
  | .set => .set f.imm11
  | .sset => .sset f.imm11

/-- The decoder unit `DEC` (R32): the mnemonic and the raw fields, or nothing where `ok` is low. -/
def dec (om : OpMap) (w : InstrWord) : Option (Mnemonic × Fields) :=
  let f := Fields.ofWord w
  match fmt (opcodeOf w) with
  | none => none
  | some fm => (om.find fm (opcodeOf w) f.func).map fun m => (m, f)

/-- The instruction a word decodes to, if it is legal. -/
def decodeWord (om : OpMap) (w : InstrWord) : Option Instr :=
  (dec om w).map fun mf => mf.1.build mf.2

/-- `DecodeWord(w, lineNo, stepNo)` (R88). -/
def decodeRecord (om : OpMap) (w : InstrWord) (line step : Nat) : Except Failure Loaded :=
  match decodeWord om w with
  | some i => .ok ⟨i, line, step⟩
  | none => .error (.invalidInstructionKind w line step)

/-- The decoder on an opcode-table word: `nbits` bits of `w`, every higher bit zero.  An instruction
is exactly one 16-bit word (R70), so more than 16 bits are no instruction. -/
def decodeTableWord (nbits w : Nat) : Option Instr :=
  if nbits ≤ 16 then decodeWord OpMap.reference (BitVec.ofNat 16 (w % 2 ^ nbits)) else none

/-! ### The encoder (R32 `ENC`, R91) -/

/-- A field placed with its lowest bit at bit `n` (R91 `field << n`). -/
def placeField {k : Nat} (v : BitVec k) (n : Nat) : InstrWord := v.setWidth 16 <<< n

/-- `op<<11 | rs<<8 | rt<<5 | rd<<2 | f` (R71, R91). -/
def wordR (om : OpMap) (m : Mnemonic) (rs rt rd : RegIdx) : InstrWord :=
  placeField (om.opcode m) 11 ||| placeField rs 8 ||| placeField rt 5 ||| placeField rd 2 ||| placeField (om.func m) 0

/-- `op<<11 | rs<<8 | rt<<5 | imm5` (R72, R91). -/
def wordI (om : OpMap) (m : Mnemonic) (rs rt : RegIdx) (imm5 : BitVec 5) : InstrWord :=
  placeField (om.opcode m) 11 ||| placeField rs 8 ||| placeField rt 5 ||| placeField imm5 0

/-- `op<<11 | rs<<8 | imm8` (R73, R91). -/
def wordB (om : OpMap) (m : Mnemonic) (rs : RegIdx) (imm8 : BitVec 8) : InstrWord :=
  placeField (om.opcode m) 11 ||| placeField rs 8 ||| placeField imm8 0

/-- `op<<11 | imm11` (R74, R91). -/
def wordJ (om : OpMap) (m : Mnemonic) (imm11 : BitVec 11) : InstrWord :=
  placeField (om.opcode m) 11 ||| placeField imm11 0

/-- The word of an instruction (R91, over raw fields). -/
def encode (om : OpMap) (i : Instr) : InstrWord :=
  match i with
  | .and rd rs rt => wordR om .and rs rt rd
  | .or rd rs rt => wordR om .or rs rt rd
  | .xor rd rs rt => wordR om .xor rs rt rd
  | .add rd rs rt => wordR om .add rs rt rd
  | .sub rd rs rt => wordR om .sub rs rt rd
  | .slt rd rs rt => wordR om .slt rs rt rd
  | .sltu rd rs rt => wordR om .sltu rs rt rd
  | .sll rt rs imm5 => wordI om .sll rs rt imm5
  | .srl rt rs imm5 => wordI om .srl rs rt imm5
  | .sra rt rs imm5 => wordI om .sra rs rt imm5
  | .ror rt rs imm5 => wordI om .ror rs rt imm5
  | .andi rt rs imm5 => wordI om .andi rs rt imm5
  | .candi rt rs imm5 => wordI om .candi rs rt imm5
  | .ori rt rs imm5 => wordI om .ori rs rt imm5
  | .xori rt rs imm5 => wordI om .xori rs rt imm5
  | .addi rt rs imm5 => wordI om .addi rs rt imm5
  | .slti rt rs imm5 => wordI om .slti rs rt imm5
  | .sltiu rt rs imm5 => wordI om .sltiu rs rt imm5
  | .lw rt rs imm5 => wordI om .lw rs rt imm5
  | .sw rt rs imm5 => wordI om .sw rs rt imm5
  | .beqz rs imm8 => wordB om .beqz rs imm8
  | .bnez rs imm8 => wordB om .bnez rs imm8
  | .bltz rs imm8 => wordB om .bltz rs imm8
  | .bgez rs imm8 => wordB om .bgez rs imm8
  | .bgtz rs imm8 => wordB om .bgtz rs imm8
  | .blez rs imm8 => wordB om .blez rs imm8
  | .jr rs imm8 => wordB om .jr rs imm8
  | .jalr rs imm8 => wordB om .jalr rs imm8
  | .j imm11 => wordJ om .j imm11
  | .jal imm11 => wordJ om .jal imm11
  | .set imm11 => wordJ om .set imm11
  | .sset imm11 => wordJ om .sset imm11

/-- The assembler record of a decoded instruction, its immediate as the operand value (R84 to R86,
R89). -/
def Instr.toRecord (sg : Imm5Signed) (line step : Nat) (i : Instr) : Record :=
  match i with
  | .and rd rs rt => ⟨.and, line, step, rs, rt, rd, 0, none⟩
  | .or rd rs rt => ⟨.or, line, step, rs, rt, rd, 0, none⟩
  | .xor rd rs rt => ⟨.xor, line, step, rs, rt, rd, 0, none⟩
  | .add rd rs rt => ⟨.add, line, step, rs, rt, rd, 0, none⟩
  | .sub rd rs rt => ⟨.sub, line, step, rs, rt, rd, 0, none⟩
  | .slt rd rs rt => ⟨.slt, line, step, rs, rt, rd, 0, none⟩
  | .sltu rd rs rt => ⟨.sltu, line, step, rs, rt, rd, 0, none⟩
  | .sll rt rs imm5 => ⟨.sll, line, step, rs, rt, 0, (ext5 sg .sll imm5).toInt, none⟩
  | .srl rt rs imm5 => ⟨.srl, line, step, rs, rt, 0, (ext5 sg .srl imm5).toInt, none⟩
  | .sra rt rs imm5 => ⟨.sra, line, step, rs, rt, 0, (ext5 sg .sra imm5).toInt, none⟩
  | .ror rt rs imm5 => ⟨.ror, line, step, rs, rt, 0, (ext5 sg .ror imm5).toInt, none⟩
  | .andi rt rs imm5 => ⟨.andi, line, step, rs, rt, 0, (ext5 sg .andi imm5).toInt, none⟩
  | .candi rt rs imm5 => ⟨.candi, line, step, rs, rt, 0, (ext5 sg .candi imm5).toInt, none⟩
  | .ori rt rs imm5 => ⟨.ori, line, step, rs, rt, 0, (ext5 sg .ori imm5).toInt, none⟩
  | .xori rt rs imm5 => ⟨.xori, line, step, rs, rt, 0, (ext5 sg .xori imm5).toInt, none⟩
  | .addi rt rs imm5 => ⟨.addi, line, step, rs, rt, 0, (ext5 sg .addi imm5).toInt, none⟩
  | .slti rt rs imm5 => ⟨.slti, line, step, rs, rt, 0, (ext5 sg .slti imm5).toInt, none⟩
  | .sltiu rt rs imm5 => ⟨.sltiu, line, step, rs, rt, 0, (ext5 sg .sltiu imm5).toInt, none⟩
  | .lw rt rs imm5 => ⟨.lw, line, step, rs, rt, 0, (ext5 sg .lw imm5).toInt, none⟩
  | .sw rt rs imm5 => ⟨.sw, line, step, rs, rt, 0, (ext5 sg .sw imm5).toInt, none⟩
  | .beqz rs imm8 => ⟨.beqz, line, step, rs, 0, 0, (sext8 imm8).toInt, none⟩
  | .bnez rs imm8 => ⟨.bnez, line, step, rs, 0, 0, (sext8 imm8).toInt, none⟩
  | .bltz rs imm8 => ⟨.bltz, line, step, rs, 0, 0, (sext8 imm8).toInt, none⟩
  | .bgez rs imm8 => ⟨.bgez, line, step, rs, 0, 0, (sext8 imm8).toInt, none⟩
  | .bgtz rs imm8 => ⟨.bgtz, line, step, rs, 0, 0, (sext8 imm8).toInt, none⟩
  | .blez rs imm8 => ⟨.blez, line, step, rs, 0, 0, (sext8 imm8).toInt, none⟩
  | .jr rs imm8 => ⟨.jr, line, step, rs, 0, 0, (sext8 imm8).toInt, none⟩
  | .jalr rs imm8 => ⟨.jalr, line, step, rs, 0, 0, (sext8 imm8).toInt, none⟩
  | .j imm11 => ⟨.j, line, step, 0, 0, 0, (sext11 imm11).toInt, none⟩
  | .jal imm11 => ⟨.jal, line, step, 0, 0, 0, (sext11 imm11).toInt, none⟩
  | .set imm11 => ⟨.set, line, step, 0, 0, 0, (zext11 imm11).toInt, none⟩
  | .sset imm11 => ⟨.sset, line, step, 0, 0, 0, (zext11 imm11).toInt, none⟩

/-- The instruction of a resolved record, its immediate reduced to its field (R91 `v mod 2^n`). -/
def Record.toInstr (r : Record) : Instr :=
  match r.mn with
  | .and => .and r.rd r.rs r.rt
  | .or => .or r.rd r.rs r.rt
  | .xor => .xor r.rd r.rs r.rt
  | .add => .add r.rd r.rs r.rt
  | .sub => .sub r.rd r.rs r.rt
  | .slt => .slt r.rd r.rs r.rt
  | .sltu => .sltu r.rd r.rs r.rt
  | .sll => .sll r.rt r.rs (BitVec.ofInt 5 r.imm)
  | .srl => .srl r.rt r.rs (BitVec.ofInt 5 r.imm)
  | .sra => .sra r.rt r.rs (BitVec.ofInt 5 r.imm)
  | .ror => .ror r.rt r.rs (BitVec.ofInt 5 r.imm)
  | .andi => .andi r.rt r.rs (BitVec.ofInt 5 r.imm)
  | .candi => .candi r.rt r.rs (BitVec.ofInt 5 r.imm)
  | .ori => .ori r.rt r.rs (BitVec.ofInt 5 r.imm)
  | .xori => .xori r.rt r.rs (BitVec.ofInt 5 r.imm)
  | .addi => .addi r.rt r.rs (BitVec.ofInt 5 r.imm)
  | .slti => .slti r.rt r.rs (BitVec.ofInt 5 r.imm)
  | .sltiu => .sltiu r.rt r.rs (BitVec.ofInt 5 r.imm)
  | .lw => .lw r.rt r.rs (BitVec.ofInt 5 r.imm)
  | .sw => .sw r.rt r.rs (BitVec.ofInt 5 r.imm)
  | .beqz => .beqz r.rs (BitVec.ofInt 8 r.imm)
  | .bnez => .bnez r.rs (BitVec.ofInt 8 r.imm)
  | .bltz => .bltz r.rs (BitVec.ofInt 8 r.imm)
  | .bgez => .bgez r.rs (BitVec.ofInt 8 r.imm)
  | .bgtz => .bgtz r.rs (BitVec.ofInt 8 r.imm)
  | .blez => .blez r.rs (BitVec.ofInt 8 r.imm)
  | .jr => .jr r.rs (BitVec.ofInt 8 r.imm)
  | .jalr => .jalr r.rs (BitVec.ofInt 8 r.imm)
  | .j => .j (BitVec.ofInt 11 r.imm)
  | .jal => .jal (BitVec.ofInt 11 r.imm)
  | .set => .set (BitVec.ofInt 11 r.imm)
  | .sset => .sset (BitVec.ofInt 11 r.imm)

/-- `EncodeRecord(rec)` (R91): a `RangeError` where the operand value is outside the mnemonic's
range, a label target refused (the codec encodes only resolved offsets). -/
def encodeRecord (om : OpMap) (sg : Imm5Signed) (r : Record) : Except Failure InstrWord :=
  if r.jumpto.isSome then .error (.unresolvedTarget r.lineNo)
  else if immInRange sg r.mn r.imm then .ok (encode om r.toInstr)
  else .error (.rangeError r.lineNo)

end Sys2Proof
end

