-- ==== Sys2Proof/Machine/Params.lean ====
section
/-! DEFINITION. The run parameters' defaults and the address check (spec/00_scope.md R7, spec/20_memory.md R52). -/

namespace Sys2Proof

/-- The default form of `MEM_VALID`: `0 ≤ a < MEM_WORDS` (R7, R52). -/
def Params.memBelow (words : Nat) : List AddrRange := [⟨0, words⟩]

/-- DESIGN CHOICE (notes/assumptions/2.md): `MEM_WORDS` of the reset state.  The spec leaves it open;
this is every address the default form can hold, so that no access the hardware might allow stops. -/
def Params.resetMemWords : Nat := 2 ^ 31

/-- The parameters at their defaults (R7), with the given `MEM_WORDS`. -/
def Params.default (words : Nat) : Params where
  memValid     := Params.memBelow words
  sltuUnsigned := false
  imm5Signed   := Imm5Signed.default

/-- The range holds the signed address `a`. -/
def AddrRange.holds (r : AddrRange) (a : Int) : Bool :=
  decide (r.base ≤ a) && decide (a < r.base + r.words)

/-- `MEM_VALID(a)`, the address read as a signed integer (R52). -/
def Params.addrValid (p : Params) (a : Word) : Bool := p.memValid.any (·.holds a.toInt)

end Sys2Proof
end

