-- ==== Sys2Proof/Machine/State.lean ====
section
/-! DEFINITION. The state of the block (spec/10_state.md R20 to R36), the reasons a run or a host access
stops, and the state after reset. -/

namespace Sys2Proof.Machine

/-- Data memory (R50 b, R51): one 32-bit word per address, sparse.  A cell's key is the address's
32-bit pattern as a number; the canonical form is `Memory.wf` (Machine/Ops.lean). -/
abbrev Memory := List (Nat × Word)

/-- The fatal errors (R211, R212).  None transfers control anywhere (R210). -/
inductive Fault where
  /-- `MemoryFault` (code 7): LW, SW or a host memory call with `MEM_VALID(ea)` false.  It records the
  effective address and the step number (for a host call, the PC).  Safe: the spec's own fault. -/
  | memoryFault (ea step : Word)
  /-- `RegisterIndexFault` (code 8): a host `get` or `set` of a register index outside 0..7; no
  instruction raises it and no run ends by it (DESIGN CHOICE, notes/assumptions/22.md: unsafe for claims
  about a run on which such a call was made). -/
  | registerIndexFault (i : Int)
  /-- `InvalidInstructionKind` (code 4): a word with no mnemonic was placed where the next step
  fetches (`State.withFetchWord`), so the load failed and there is no run (R82, U10, U11).  Raised
  by the load, never by an instruction.  Safe: the machine stops. -/
  | invalidInstructionKind (word : InstrWord)
  deriving DecidableEq, Repr

/-- Why the model gives an instruction no meaning. -/
inductive Refusal where
  /-- Raised by an arm of `exec` for an instruction the model leaves out.  No arm of this model does.
  Safe: the machine stops. -/
  | notModelled (mnemonic : String)
  deriving DecidableEq, Repr

/-- The run status (R31).  Every one but `running` is final. -/
inductive RunStatus where
  | running
  | halted
  | cancelled
  | killed
  | faulted (e : Fault)
  deriving DecidableEq, Repr

/-- The state of a run: `(pc, x, M)`, the loaded program, the run status and the host's inputs (R20,
R31, R32), with the parameters the run was started under (R7).  `program` and `params` never change
during a run. -/
structure State where
  /-- `MEM_VALID`, `SLTU_UNSIGNED`, `IMM5_SIGNED` (R7). -/
  params  : Params
  /-- `P`, the decoded records by step number (R20, R50 a, R241). -/
  program : List Loaded
  /-- The step index of the instruction to execute (R28, R29). -/
  pc      : Word
  /-- `x[0..7]` (R22). -/
  regs    : Vector Word 8
  /-- `M` (R50 b, R51). -/
  mem     : Memory
  /-- The run status (R31). -/
  status  : RunStatus
  /-- The host's cancellation request (R31, R220). -/
  cancel  : Bool
  /-- The host's forced-kill input (R32, R222). -/
  kill    : Bool
  /-- The model's own: how many free values a killed run has drawn (notes/assumptions/6.md). -/
  draws   : Nat
  deriving DecidableEq, Repr

/-- The block with nothing loaded (R36, R240): `pc` 0, status `Running`, `cancel` deasserted.
`INIT_R`, `INIT_M`, `MEM_WORDS` and `draws` are DESIGN CHOICE (notes/assumptions/1.md, 2.md, 3.md, 6.md):
the spec leaves them to the caller.  `kill` deasserted is DESIGN CHOICE (notes/assumptions/18.md): the spec
gives a start value for `cancel` only. -/
def State.reset : State where
  params  := Params.default Params.resetMemWords
  program := []
  pc      := 0
  regs    := Vector.replicate 8 0
  mem     := []
  status  := .running
  cancel  := false
  kill    := false
  draws   := 0

end Sys2Proof.Machine
end

