-- ==== Sys2Proof/Machine/Ops.lean ====
section
/-! DEFINITION. The shared operations: registers (spec/00_scope.md R12, spec/10_state.md R22, R23), data
memory (spec/20_memory.md R52, R55, R57), an instruction's effect and its commit (spec/10_state.md R30, R33),
the fatal errors (spec/60_exceptions.md R210 to R213) and the program store's fetch. -/

namespace Sys2Proof.Machine

/-! ### Registers -/

/-- `x[i]` (R12): no register is hard-wired (R23). -/
def State.reg (s : State) (r : RegIdx) : Word := s.regs[r.toFin]

/-- `x[i] <- v` (R12). -/
def State.setReg (s : State) (r : RegIdx) (v : Word) : State :=
  { s with regs := s.regs.set r.toFin v r.toFin.isLt }

/-! ### Data memory -/

/-- What an unlisted address holds.  DESIGN CHOICE (notes/assumptions/3.md): `INIT_M` is the caller's
(R55); every `INIT_M` is some list of cells over this one word. -/
def Memory.unlisted : Word := 0

/-- The word at an address. -/
def Memory.read : Memory → Nat → Word
  | [], _ => Memory.unlisted
  | (k, w) :: m, a => if a = k then w else Memory.read m a

/-- Store a word, keeping the canonical form. -/
def Memory.write : Memory → Nat → Word → Memory
  | [], a, v => if v = Memory.unlisted then [] else [(a, v)]
  | (k, w) :: m, a, v =>
    if a < k then (if v = Memory.unlisted then (k, w) :: m else (a, v) :: (k, w) :: m)
    else if a = k then (if v = Memory.unlisted then m else (a, v) :: m)
    else (k, w) :: Memory.write m a v

/-- Every key of the list is above `lo`, keys strictly rise, each is a 32-bit pattern, and no cell
holds the unlisted word. -/
def Memory.wfAbove : Option Nat → Memory → Bool
  | _, [] => true
  | lo, (k, w) :: m =>
    (match lo with | none => true | some l => decide (l < k)) && decide (k < 2 ^ 32)
      && decide (w ≠ Memory.unlisted) && Memory.wfAbove (some k) m

/-- The canonical form: equal memories are equal lists. -/
def Memory.wf (m : Memory) : Bool := Memory.wfAbove none m

/-- Every listed cell is at an address that exists (R52). -/
def Memory.within (m : Memory) (p : Params) : Bool := m.all fun c => p.addrValid (BitVec.ofNat 32 c.1)

/-- A memory in canonical form from cells in any order, those at addresses that do not exist left
out; the last of two cells at one address wins. -/
def Memory.ofCells (p : Params) (cells : List (Nat × Word)) : Memory :=
  cells.foldl
    (fun m c => if decide (c.1 < 2 ^ 32) && p.addrValid (BitVec.ofNat 32 c.1) then m.write c.1 c.2 else m) []

/-- `MemRead(a, 1)` (R52). -/
def State.memRead (s : State) (a : Word) : Except Fault Word :=
  if s.params.addrValid a then .ok (s.mem.read a.toNat) else .error (.memoryFault a s.pc)

/-- `MemWrite(a, 1, v)` (R52). -/
def State.memWrite (s : State) (a v : Word) : Except Fault Memory :=
  if s.params.addrValid a then .ok (s.mem.write a.toNat v) else .error (.memoryFault a s.pc)

/-! ### An instruction's effect (R33) -/

/-- What one instruction asks for: at most one register write, at most one memory write, and an
explicit next PC if it sets one (R30, R33). -/
structure Effect where
  regWrite : Option (RegIdx × Word) := none
  memWrite : Option (Word × Word)   := none
  nextPc   : Option Word            := none
  deriving DecidableEq, Repr

/-- The registers after the effect. -/
def Effect.applyRegs (e : Effect) (s : State) : Vector Word 8 :=
  match e.regWrite with
  | none => s.regs
  | some (r, v) => (s.setReg r v).regs

/-- Apply the writes, then the PC: the explicit target if the instruction set one, else `pc + 1`
(R30, R33).  A memory write to an address that does not exist is a `MemoryFault`, and nothing of the
effect happens (R52, R213). -/
def State.commit (s : State) (e : Effect) : Host.Outcome State Fault Refusal :=
  match e.memWrite with
  | none => .next { s with regs := e.applyRegs s, pc := e.nextPc.getD (s.pc + 1) }
  | some (a, v) =>
    match s.memWrite a v with
    | .error f => .fault f
    | .ok m => .next { s with regs := e.applyRegs s, mem := m, pc := e.nextPc.getD (s.pc + 1) }

/-- Write one register and advance. -/
def State.writeReg (s : State) (r : RegIdx) (v : Word) : Host.Outcome State Fault Refusal :=
  s.commit { regWrite := some (r, v) }

/-- Read memory, write the word to a register and advance; a `MemoryFault` writes nothing (R170). -/
def State.loadReg (s : State) (r : RegIdx) (a : Word) : Host.Outcome State Fault Refusal :=
  match s.memRead a with
  | .error f => .fault f
  | .ok v => s.writeReg r v

/-- Store a word and advance (R171). -/
def State.storeWord (s : State) (a v : Word) : Host.Outcome State Fault Refusal :=
  s.commit { memWrite := some (a, v) }

/-- Go to a target, writing no register. -/
def State.jumpTo (s : State) (t : Word) : Host.Outcome State Fault Refusal :=
  s.commit { nextPc := some t }

/-- Go to a target and put `pc + 1` in the link register, register 7 (R25). -/
def State.linkAndJump (s : State) (t : Word) : Host.Outcome State Fault Refusal :=
  s.commit { regWrite := some (7, s.pc + 1), nextPc := some t }

/-- The branch template (R178): taken, the explicit next PC; not taken, the auto-increment. -/
def State.branch (s : State) (taken : Bool) (t : Word) : Host.Outcome State Fault Refusal :=
  s.commit { nextPc := if taken then some t else none }

/-! ### Fatal errors and the other ends of a run -/

/-- A fatal error ends the run (R33, R213): the status records it; `pc`, registers and memory stay as
before the instruction.  There is no trap and so no return from one (R210). -/
def State.recordFault (s : State) (e : Fault) : State := { s with status := .faulted e }

/-- The PC is outside the program: a normal halt (R34). -/
def State.halt (s : State) : State := { s with status := .halted }

/-- A cancellation seen at a step boundary (R221). -/
def State.cancelRun (s : State) : State := { s with status := .cancelled }

/-- A forced kill (R222, U2): `pc`, registers and memory are free values; the memory keeps its
canonical form and holds only addresses that exist. -/
def State.killRun (s : State) : State :=
  { s with
    pc     := Config.killedPc s.draws
    regs   := Config.killedRegs s.draws
    mem    := Memory.ofCells s.params (Config.killedMem s.draws)
    status := .killed
    draws  := s.draws + 1 }

/-! ### The program store -/

/-- `0 ≤ pc < len(P)`, the PC read as a signed integer (R29, R33). -/
def State.pcInProgram (s : State) : Bool :=
  decide (0 ≤ s.pc.toInt) && decide (s.pc.toInt < s.program.length)

/-- `P[pc]`, if the PC is inside the program (R33). -/
def State.fetch (s : State) : Option Loaded :=
  if s.pcInProgram then s.program[s.pc.toNat]? else none

end Sys2Proof.Machine
end

