-- ==== Sys2Proof/Machine/Operands.lean ====
section
/-! DEFINITION. The operand forms over a state: the imm5 operand (spec/30_encoding.md R84), the one
addressing mode (spec/42_load_store.md R169) and the four target forms (spec/43_branch_jump.md R178,
R186 to R189). -/

namespace Sys2Proof.Machine

/-- The imm5 operand of a mnemonic, `ext5(imm5)` (R13, R84). -/
def State.imm5 (s : State) (m : Mnemonic) (v : BitVec 5) : Word := ext5 s.params.imm5Signed m v

/-- Base plus offset: `ea <- x[rs] + ext5(imm5)`, modulo 2^32 (R169). -/
def State.effectiveAddress (s : State) (m : Mnemonic) (rs : RegIdx) (v : BitVec 5) : Word :=
  s.reg rs + s.imm5 m v

/-- The target of a taken branch, relative to the branch's own step (R178, R179). -/
def State.branchTarget (s : State) (imm8 : BitVec 8) : Word := s.pc + sext8 imm8

/-- The absolute target of JR and JALR (R186, R187). -/
def State.registerTarget (s : State) (rs : RegIdx) (imm8 : BitVec 8) : Word := s.reg rs + sext8 imm8

/-- The target of J and JAL, relative to the jump's own step (R188, R189). -/
def State.jumpTarget (s : State) (imm11 : BitVec 11) : Word := s.pc + sext11 imm11

/-- Rotate right by a count 0..31, composed of the two logical shifts (R143). -/
def rotateRight (v : Word) (n : BitVec 5) : Word :=
  if n = 0 then v else (v >>> n.toNat) ||| (v <<< (32 - n.toNat))

end Sys2Proof.Machine
end

