-- ==== Sys2Proof/Machine/Flags.lean ====
section
/-! DEFINITION. YKJM-16 has no flag (spec/10_state.md R21).  What other machines put into flags is here a
word in a general register (SLT and its kin) or a branch predicate on one register. -/

namespace Sys2Proof.Machine

/-- `condition ? 1 : 0` (R125). -/
def boolWord (b : Bool) : Word := if b then 1 else 0

/-- `a <s b` (R10). -/
def ltSigned (a b : Word) : Bool := decide (a.toInt < b.toInt)

/-- `a <u b` (R10). -/
def ltUnsigned (a b : Word) : Bool := decide (a.toNat < b.toNat)

/-- The comparison of SLTU and SLTIU: signed by default, unsigned under `SLTU_UNSIGNED` (R126, R150). -/
def State.ltu (s : State) (a b : Word) : Bool :=
  if s.params.sltuUnsigned then ltUnsigned a b else ltSigned a b

/-- The branch predicates against zero, signed (R178, R180 to R185). -/
def isEqZ (v : Word) : Bool := decide (v = 0)
def isNeZ (v : Word) : Bool := decide (v ≠ 0)
def isLtZ (v : Word) : Bool := ltSigned v 0
def isGeZ (v : Word) : Bool := !ltSigned v 0
def isGtZ (v : Word) : Bool := ltSigned 0 v
def isLeZ (v : Word) : Bool := !ltSigned 0 v

end Sys2Proof.Machine
end

