-- ==== Sys2Proof/Machine/Branch.lean ====
section
/-! DEFINITION. The branches and jumps (spec/43_branch_jump.md): the new PC takes effect at the very next fetch, and
any 32-bit target is legal (R179). -/

namespace Sys2Proof.Machine

/-- BEQZ (R180): taken if `x[rs]` = 0. -/
def execBeqz (rs : RegIdx) (imm8 : BitVec 8) (s : State) : Host.Outcome State Fault Refusal :=
  s.branch (isEqZ (s.reg rs)) (s.branchTarget imm8)

/-- BNEZ (R181): taken if `x[rs]` ≠ 0. -/
def execBnez (rs : RegIdx) (imm8 : BitVec 8) (s : State) : Host.Outcome State Fault Refusal :=
  s.branch (isNeZ (s.reg rs)) (s.branchTarget imm8)

/-- BLTZ (R182): taken if `x[rs]` <s 0. -/
def execBltz (rs : RegIdx) (imm8 : BitVec 8) (s : State) : Host.Outcome State Fault Refusal :=
  s.branch (isLtZ (s.reg rs)) (s.branchTarget imm8)

/-- BGEZ (R183): taken if `x[rs]` ≥s 0. -/
def execBgez (rs : RegIdx) (imm8 : BitVec 8) (s : State) : Host.Outcome State Fault Refusal :=
  s.branch (isGeZ (s.reg rs)) (s.branchTarget imm8)

/-- BGTZ (R184): taken if `x[rs]` >s 0. -/
def execBgtz (rs : RegIdx) (imm8 : BitVec 8) (s : State) : Host.Outcome State Fault Refusal :=
  s.branch (isGtZ (s.reg rs)) (s.branchTarget imm8)

/-- BLEZ (R185): taken if `x[rs]` ≤s 0. -/
def execBlez (rs : RegIdx) (imm8 : BitVec 8) (s : State) : Host.Outcome State Fault Refusal :=
  s.branch (isLeZ (s.reg rs)) (s.branchTarget imm8)

/-- JR (R186): `pc <- x[rs] + sext_8(imm8)`. -/
def execJr (rs : RegIdx) (imm8 : BitVec 8) (s : State) : Host.Outcome State Fault Refusal :=
  s.jumpTo (s.registerTarget rs imm8)

/-- JALR (R187): the target from the old `x[rs]`, then the link in register 7. -/
def execJalr (rs : RegIdx) (imm8 : BitVec 8) (s : State) : Host.Outcome State Fault Refusal :=
  s.linkAndJump (s.registerTarget rs imm8)

/-- J (R188): `pc <- pc + sext_11(imm11)`. -/
def execJ (imm11 : BitVec 11) (s : State) : Host.Outcome State Fault Refusal :=
  s.jumpTo (s.jumpTarget imm11)

/-- JAL (R189): the link in register 7, then `pc <- pc + sext_11(imm11)`. -/
def execJal (imm11 : BitVec 11) (s : State) : Host.Outcome State Fault Refusal :=
  s.linkAndJump (s.jumpTarget imm11)

end Sys2Proof.Machine
end

