-- ==== Sys2Proof/Machine/ImmediateAlu.lean ====
section
/-! DEFINITION. The shifts and immediate ALU instructions (spec/41_immediate_alu.md): `x[rt] <- x[rs] op imm5`,
the source read before the write (R139).  A shift count is 0..31 (R138). -/

namespace Sys2Proof.Machine

/-- SLL (R140): `x[rt] <- x[rs] << zext_5(imm5)`. -/
def execSll (rt rs : RegIdx) (imm5 : BitVec 5) (s : State) : Host.Outcome State Fault Refusal :=
  s.writeReg rt (s.reg rs <<< imm5.toNat)

/-- SRL (R141): `x[rt] <- x[rs] >>u zext_5(imm5)`. -/
def execSrl (rt rs : RegIdx) (imm5 : BitVec 5) (s : State) : Host.Outcome State Fault Refusal :=
  s.writeReg rt (s.reg rs >>> imm5.toNat)

/-- SRA (R142): `x[rt] <- x[rs] >>s zext_5(imm5)`. -/
def execSra (rt rs : RegIdx) (imm5 : BitVec 5) (s : State) : Host.Outcome State Fault Refusal :=
  s.writeReg rt ((s.reg rs).sshiftRight imm5.toNat)

/-- ROR (R143): rotate right by `zext_5(imm5)`. -/
def execRor (rt rs : RegIdx) (imm5 : BitVec 5) (s : State) : Host.Outcome State Fault Refusal :=
  s.writeReg rt (rotateRight (s.reg rs) imm5)

/-- ANDI (R144): `x[rt] <- x[rs] & ext5(imm5)`. -/
def execAndi (rt rs : RegIdx) (imm5 : BitVec 5) (s : State) : Host.Outcome State Fault Refusal :=
  s.writeReg rt (s.reg rs &&& s.imm5 .andi imm5)

/-- CANDI (R145): as ANDI, the observed behaviour (decision D6, notes/assumptions/9.md). -/
def execCandi (rt rs : RegIdx) (imm5 : BitVec 5) (s : State) : Host.Outcome State Fault Refusal :=
  s.writeReg rt (s.reg rs &&& s.imm5 .candi imm5)

/-- ORI (R146): `x[rt] <- x[rs] | ext5(imm5)`. -/
def execOri (rt rs : RegIdx) (imm5 : BitVec 5) (s : State) : Host.Outcome State Fault Refusal :=
  s.writeReg rt (s.reg rs ||| s.imm5 .ori imm5)

/-- XORI (R147): `x[rt] <- x[rs] ^ ext5(imm5)`. -/
def execXori (rt rs : RegIdx) (imm5 : BitVec 5) (s : State) : Host.Outcome State Fault Refusal :=
  s.writeReg rt (s.reg rs ^^^ s.imm5 .xori imm5)

/-- ADDI (R148): `x[rt] <- x[rs] + ext5(imm5)`. -/
def execAddi (rt rs : RegIdx) (imm5 : BitVec 5) (s : State) : Host.Outcome State Fault Refusal :=
  s.writeReg rt (s.reg rs + s.imm5 .addi imm5)

/-- SLTI (R149): `x[rt] <- (x[rs] <s ext5(imm5)) ? 1 : 0`. -/
def execSlti (rt rs : RegIdx) (imm5 : BitVec 5) (s : State) : Host.Outcome State Fault Refusal :=
  s.writeReg rt (boolWord (ltSigned (s.reg rs) (s.imm5 .slti imm5)))

/-- SLTIU (R150): as SLTI unless `SLTU_UNSIGNED`. -/
def execSltiu (rt rs : RegIdx) (imm5 : BitVec 5) (s : State) : Host.Outcome State Fault Refusal :=
  s.writeReg rt (boolWord (s.ltu (s.reg rs) (s.imm5 .sltiu imm5)))

end Sys2Proof.Machine
end

