-- ==== Sys2Proof/Machine/LoadStore.lean ====
section
/-! DEFINITION. The load and the store (spec/42_load_store.md), each one access of one word at `x[rs] + ext5(imm5)`
(R169).  An address that does not exist is a `MemoryFault` and nothing is written (R52, R213). -/

namespace Sys2Proof.Machine

/-- LW (R170): `x[rt] <- MemRead(ea, 1)`. -/
def execLw (rt rs : RegIdx) (imm5 : BitVec 5) (s : State) : Host.Outcome State Fault Refusal :=
  s.loadReg rt (s.effectiveAddress .lw rs imm5)

/-- SW (R171): `MemWrite(ea, 1, x[rt])`. -/
def execSw (rt rs : RegIdx) (imm5 : BitVec 5) (s : State) : Host.Outcome State Fault Refusal :=
  s.storeWord (s.effectiveAddress .sw rs imm5) (s.reg rt)

end Sys2Proof.Machine
end

