-- ==== Sys2Proof/Machine/RegisterAlu.lean ====
section
/-! DEFINITION. The R-format instructions (spec/40_register_alu.md): `x[rd] <- x[rs] op x[rt]`, both sources
read before the write (R119), sums and differences modulo 2^32 with no trap (R127). -/

namespace Sys2Proof.Machine

/-- AND (R120): `x[rd] <- x[rs] & x[rt]`. -/
def execAnd (rd rs rt : RegIdx) (s : State) : Host.Outcome State Fault Refusal :=
  s.writeReg rd (s.reg rs &&& s.reg rt)

/-- OR (R121): `x[rd] <- x[rs] | x[rt]`. -/
def execOr (rd rs rt : RegIdx) (s : State) : Host.Outcome State Fault Refusal :=
  s.writeReg rd (s.reg rs ||| s.reg rt)

/-- XOR (R122): `x[rd] <- x[rs] ^ x[rt]`. -/
def execXor (rd rs rt : RegIdx) (s : State) : Host.Outcome State Fault Refusal :=
  s.writeReg rd (s.reg rs ^^^ s.reg rt)

/-- ADD (R123): `x[rd] <- x[rs] + x[rt]`. -/
def execAdd (rd rs rt : RegIdx) (s : State) : Host.Outcome State Fault Refusal :=
  s.writeReg rd (s.reg rs + s.reg rt)

/-- SUB (R124): `x[rd] <- x[rs] - x[rt]`. -/
def execSub (rd rs rt : RegIdx) (s : State) : Host.Outcome State Fault Refusal :=
  s.writeReg rd (s.reg rs - s.reg rt)

/-- SLT (R125): `x[rd] <- (x[rs] <s x[rt]) ? 1 : 0`. -/
def execSlt (rd rs rt : RegIdx) (s : State) : Host.Outcome State Fault Refusal :=
  s.writeReg rd (boolWord (ltSigned (s.reg rs) (s.reg rt)))

/-- SLTU (R126): as SLT unless `SLTU_UNSIGNED`. -/
def execSltu (rd rs rt : RegIdx) (s : State) : Host.Outcome State Fault Refusal :=
  s.writeReg rd (boolWord (s.ltu (s.reg rs) (s.reg rt)))

end Sys2Proof.Machine
end

