-- ==== Sys2Proof/Machine/WideImmediate.lean ====
section
/-! DEFINITION. SET and SSET, which build constants in the accumulator, register 0 (spec/44_wide_immediate.md, R24). -/

namespace Sys2Proof.Machine

/-- SET (R200): `x[0] <- zext_11(imm11)`. -/
def execSet (imm11 : BitVec 11) (s : State) : Host.Outcome State Fault Refusal :=
  s.writeReg 0 (zext11 imm11)

/-- SSET (R201): `x[0] <- (x[0] << 11) | zext_11(imm11)`. -/
def execSset (imm11 : BitVec 11) (s : State) : Host.Outcome State Fault Refusal :=
  s.writeReg 0 ((s.reg 0 <<< 11) ||| zext11 imm11)

end Sys2Proof.Machine
end

