-- ==== Sys2Proof/Machine/Dispatch.lean ====
section
/-! DEFINITION. `Execute(rec, pc, x, M)` with its writes applied (spec/10_state.md R33): one arm per instruction. -/

namespace Sys2Proof.Machine

def exec (i : Instr) (s : State) : Host.Outcome State Fault Refusal :=
  match i with
  | .and rd rs rt => Sys2Proof.Machine.execAnd rd rs rt s
  | .or rd rs rt => Sys2Proof.Machine.execOr rd rs rt s
  | .xor rd rs rt => Sys2Proof.Machine.execXor rd rs rt s
  | .add rd rs rt => Sys2Proof.Machine.execAdd rd rs rt s
  | .sub rd rs rt => Sys2Proof.Machine.execSub rd rs rt s
  | .slt rd rs rt => Sys2Proof.Machine.execSlt rd rs rt s
  | .sltu rd rs rt => Sys2Proof.Machine.execSltu rd rs rt s
  | .sll rt rs imm5 => Sys2Proof.Machine.execSll rt rs imm5 s
  | .srl rt rs imm5 => Sys2Proof.Machine.execSrl rt rs imm5 s
  | .sra rt rs imm5 => Sys2Proof.Machine.execSra rt rs imm5 s
  | .ror rt rs imm5 => Sys2Proof.Machine.execRor rt rs imm5 s
  | .andi rt rs imm5 => Sys2Proof.Machine.execAndi rt rs imm5 s
  | .candi rt rs imm5 => Sys2Proof.Machine.execCandi rt rs imm5 s
  | .ori rt rs imm5 => Sys2Proof.Machine.execOri rt rs imm5 s
  | .xori rt rs imm5 => Sys2Proof.Machine.execXori rt rs imm5 s
  | .addi rt rs imm5 => Sys2Proof.Machine.execAddi rt rs imm5 s
  | .slti rt rs imm5 => Sys2Proof.Machine.execSlti rt rs imm5 s
  | .sltiu rt rs imm5 => Sys2Proof.Machine.execSltiu rt rs imm5 s
  | .lw rt rs imm5 => Sys2Proof.Machine.execLw rt rs imm5 s
  | .sw rt rs imm5 => Sys2Proof.Machine.execSw rt rs imm5 s
  | .beqz rs imm8 => Sys2Proof.Machine.execBeqz rs imm8 s
  | .bnez rs imm8 => Sys2Proof.Machine.execBnez rs imm8 s
  | .bltz rs imm8 => Sys2Proof.Machine.execBltz rs imm8 s
  | .bgez rs imm8 => Sys2Proof.Machine.execBgez rs imm8 s
  | .bgtz rs imm8 => Sys2Proof.Machine.execBgtz rs imm8 s
  | .blez rs imm8 => Sys2Proof.Machine.execBlez rs imm8 s
  | .jr rs imm8 => Sys2Proof.Machine.execJr rs imm8 s
  | .jalr rs imm8 => Sys2Proof.Machine.execJalr rs imm8 s
  | .j imm11 => Sys2Proof.Machine.execJ imm11 s
  | .jal imm11 => Sys2Proof.Machine.execJal imm11 s
  | .set imm11 => Sys2Proof.Machine.execSet imm11 s
  | .sset imm11 => Sys2Proof.Machine.execSset imm11 s

end Sys2Proof.Machine
end

