-- ==== Sys2Proof/Machine/Run.lean ====
section
/-! DEFINITION. The run controller: one step of the run loop (spec/10_state.md R33, R34), and the placing of a
word where the next step fetches. -/

namespace Sys2Proof.Machine

/-- What a step makes of the executed instruction (R33): its next state, or the run ended `Faulted`
with nothing of the instruction done. -/
def State.settle (s : State) (o : Host.Outcome State Fault Refusal) : Host.Outcome State Fault Refusal :=
  match o with
  | .next t => .next t
  | .fault e => .next (s.recordFault e)
  | .refused r => .refused r

/-- The step boundary and the instruction after it, in the order of R33: a PC outside the program halts
before a cancellation is seen (decision D18). -/
def State.stepRunning (s : State) : Host.Outcome State Fault Refusal :=
  match s.fetch with
  | none => .next s.halt
  | some p => if s.cancel then .next s.cancelRun else s.settle (exec p.instr s)

/-- One step of the controller.  A running machine with `kill` asserted is killed first (DESIGN CHOICE,
notes/assumptions/7.md).  A final status stays: no later step changes it or the state (R31); a faulted
machine answers its fault (notes/assumptions/5.md). -/
def State.stepRun (s : State) : Host.Outcome State Fault Refusal :=
  match s.status with
  | .running => if s.kill then .next s.killRun else s.stepRunning
  | .faulted e => .fault e
  | .halted => .next s
  | .cancelled => .next s
  | .killed => .next s

/-- Put an instruction where the next step fetches, and let that step run it: into the loaded program
at the PC if the PC is inside it, else as the only instruction of a program at step 0. -/
def State.placeInstr (s : State) (i : Instr) : State :=
  if s.pcInProgram then
    { s with
      program := s.program.set s.pc.toNat ⟨i, s.pc.toNat, s.pc.toNat⟩
      status := .running, cancel := false, kill := false }
  else
    { s with program := [⟨i, 0, 0⟩], pc := 0, status := .running, cancel := false, kill := false }

/-- Load an opcode-table word where the next step fetches (notes/assumptions/4.md).  A word with no
mnemonic fails the load: there is no run (R82). -/
def State.placeTableWord (s : State) (nbits w : Nat) : State :=
  match decodeTableWord nbits w with
  | some i => s.placeInstr i
  | none => s.recordFault (.invalidInstructionKind (BitVec.ofNat 16 w))

end Sys2Proof.Machine
end

