-- ==== Sys2Proof/Machine/Lexer.lean ====
section
/-! DEFINITION. Characters and tokens of the assembly text (spec/30_encoding.md R94 to R98, R112). -/

namespace Sys2Proof.Asm

/-- Whitespace inside a line.  DESIGN CHOICE (notes/assumptions/10.md): the blank and the tab. -/
def isBlank (c : Char) : Bool := decide (c = ' ') || decide (c = '\t')

def isDigit (c : Char) : Bool := decide (48 ≤ c.toNat) && decide (c.toNat ≤ 57)

def isLetter (c : Char) : Bool :=
  (decide (65 ≤ c.toNat) && decide (c.toNat ≤ 90)) || (decide (97 ≤ c.toNat) && decide (c.toNat ≤ 122))

/-- A capital letter's small one; mnemonics are matched without regard to case (R94). -/
def toSmall (c : Char) : Char :=
  if 65 ≤ c.toNat ∧ c.toNat ≤ 90 then Char.ofNat (c.toNat + 32) else c

/-- The text without whitespace at either end. -/
def trim (t : Text) : Text := ((t.dropWhile isBlank).reverse.dropWhile isBlank).reverse

/-- The parts between separators; n separators give n + 1 parts. -/
def splitOn (sep : Char) : Text → List Text
  | [] => [[]]
  | c :: cs =>
    if c = sep then [] :: splitOn sep cs
    else
      match splitOn sep cs with
      | [] => [[c]]
      | p :: ps => (c :: p) :: ps

/-- A label identifier (R98): a letter or `_`, then letters, digits or `_`. -/
def isIdent : Text → Bool
  | [] => false
  | c :: cs => (isLetter c || decide (c = '_')) && cs.all fun d => isLetter d || isDigit d || decide (d = '_')

/-- The value of a nonempty run of decimal digits. -/
def digitsValue (t : Text) : Option Nat :=
  if decide (t ≠ []) && t.all isDigit then some (t.foldl (fun n c => 10 * n + (c.toNat - 48)) 0) else none

/-- A decimal numeral with an optional leading `-` (R96). -/
def numeral (t : Text) : Option Int :=
  match t with
  | '-' :: ds => (digitsValue ds).map fun n => -(n : Int)
  | _ => (digitsValue t).map fun n => (n : Int)

/-- The decimal digits of a number; the first argument bounds how many are written, less one. -/
def natDigits : Nat → Nat → Text
  | 0, n => [Char.ofNat (48 + n % 10)]
  | k + 1, n => if n < 10 then [Char.ofNat (48 + n)] else natDigits k (n / 10) ++ [Char.ofNat (48 + n % 10)]

/-- A decimal operand value, with `-` if negative (R112). -/
def decimal (v : Int) : Text :=
  if v < 0 then '-' :: natDigits v.natAbs v.natAbs else natDigits v.natAbs v.natAbs

/-- A register token `$n` (R95). -/
def registerOf (t : Text) : Option RegIdx :=
  match t with
  | ['$', c] => if 48 ≤ c.toNat ∧ c.toNat ≤ 55 then some (BitVec.ofNat 3 (c.toNat - 48)) else none
  | _ => none

/-- The token of a register (R95). -/
def registerText (r : RegIdx) : Text := ['$', Char.ofNat (48 + r.toNat)]

end Sys2Proof.Asm
end

