-- ==== Sys2Proof/Machine/Assembler.lean ====
section
/-! DEFINITION. The assembler backend (spec/30_encoding.md sections 7 and 8): parsing a line (R93 to R101),
pass 1 with the label table (R102 to R105), pass 2 with label resolution and encoding (R106, R107),
and the rendering of a record (R112).  Line numbers count from 1 and include blank lines (R103). -/

namespace Sys2Proof.Asm

/-- The name of a mnemonic as the renderer writes it (R99). -/
def mnemonicText : Mnemonic → Text
  | .and => "and".toList
  | .or => "or".toList
  | .xor => "xor".toList
  | .add => "add".toList
  | .sub => "sub".toList
  | .slt => "slt".toList
  | .sltu => "sltu".toList
  | .sll => "sll".toList
  | .srl => "srl".toList
  | .sra => "sra".toList
  | .ror => "ror".toList
  | .andi => "andi".toList
  | .candi => "candi".toList
  | .ori => "ori".toList
  | .xori => "xori".toList
  | .addi => "addi".toList
  | .slti => "slti".toList
  | .sltiu => "sltiu".toList
  | .lw => "lw".toList
  | .sw => "sw".toList
  | .beqz => "beqz".toList
  | .bnez => "bnez".toList
  | .bltz => "bltz".toList
  | .bgez => "bgez".toList
  | .bgtz => "bgtz".toList
  | .blez => "blez".toList
  | .jr => "jr".toList
  | .jalr => "jalr".toList
  | .j => "j".toList
  | .jal => "jal".toList
  | .set => "set".toList
  | .sset => "sset".toList

/-- The mnemonic a token names, without regard to letter case (R94). -/
def mnemonicOf (t : Text) : Option Mnemonic :=
  Mnemonic.all.find? fun m => decide (mnemonicText m = t.map toSmall)

/-- The operand forms of R99. -/
inductive OperandForm where
  /-- `$rd, $rs, $rt`. -/
  | threeRegs
  /-- `$rt, $rs, imm`. -/
  | twoRegsImm
  /-- `$rt, imm($rs)`. -/
  | memory
  /-- `$rs, target` and, for JR and JALR, `$rs, imm`. -/
  | regTarget
  /-- `target` and, for SET and SSET, `imm`. -/
  | target
  deriving DecidableEq, Repr

/-- The operand form of each mnemonic (R99). -/
def operandForm : Mnemonic → OperandForm
  | .and => .threeRegs
  | .or => .threeRegs
  | .xor => .threeRegs
  | .add => .threeRegs
  | .sub => .threeRegs
  | .slt => .threeRegs
  | .sltu => .threeRegs
  | .sll => .twoRegsImm
  | .srl => .twoRegsImm
  | .sra => .twoRegsImm
  | .ror => .twoRegsImm
  | .andi => .twoRegsImm
  | .candi => .twoRegsImm
  | .ori => .twoRegsImm
  | .xori => .twoRegsImm
  | .addi => .twoRegsImm
  | .slti => .twoRegsImm
  | .sltiu => .twoRegsImm
  | .lw => .memory
  | .sw => .memory
  | .beqz => .regTarget
  | .bnez => .regTarget
  | .bltz => .regTarget
  | .bgez => .regTarget
  | .bgtz => .regTarget
  | .blez => .regTarget
  | .jr => .regTarget
  | .jalr => .regTarget
  | .j => .target
  | .jal => .target
  | .set => .target
  | .sset => .target

/-- How many operands a form has (R99). -/
def OperandForm.arity : OperandForm → Nat
  | .threeRegs => 3
  | .twoRegsImm => 3
  | .memory => 2
  | .regTarget => 2
  | .target => 1

/-- An immediate operand: a numeral in the mnemonic's range (R96). -/
def immediateOf (sg : Imm5Signed) (m : Mnemonic) (t : Text) : Option Int :=
  match numeral t with
  | some v => if immInRange sg m v then some v else none
  | none => none

/-- A memory operand `imm($n)` (R97). -/
def memoryOf (sg : Imm5Signed) (m : Mnemonic) (t : Text) : Option (Int × RegIdx) :=
  match t.dropWhile (fun c => decide (c ≠ '(')) with
  | ['(', d, c, ')'] =>
    match immediateOf sg m (t.takeWhile fun c => decide (c ≠ '(')), registerOf [d, c] with
    | some v, some r => some (v, r)
    | _, _ => none
  | _ => none

/-- A target or immediate operand: a numeral in range or, where the mnemonic takes one, a label (R98). -/
def targetOf (sg : Imm5Signed) (m : Mnemonic) (t : Text) : Option (Int × Option Text) :=
  match immediateOf sg m t with
  | some v => some (v, none)
  | none => if m.takesLabel && isIdent t then some (0, some t) else none

/-- The parsed operand, or `MalformedOperand` with the offending token (R95, R96, R100). -/
def need {α : Type} (line : Nat) (t : Text) (o : Option α) : Except Failure α :=
  match o with
  | some a => .ok a
  | none => .error (.malformedOperand line t)

/-- The record of a mnemonic over its operand tokens (R99), the leftmost bad operand reported; a wrong
number of them is an `ArityMismatch` (R100). -/
def parseOperands (sg : Imm5Signed) (m : Mnemonic) (line step : Nat) (ops : List Text) :
    Except Failure Record :=
  match operandForm m, ops with
  | .threeRegs, [a, b, c] => do
    let rd ← need line a (registerOf a)
    let rs ← need line b (registerOf b)
    let rt ← need line c (registerOf c)
    return { mn := m, lineNo := line, stepNo := step, rs := rs, rt := rt, rd := rd }
  | .twoRegsImm, [a, b, c] => do
    let rt ← need line a (registerOf a)
    let rs ← need line b (registerOf b)
    let v ← need line c (immediateOf sg m c)
    return { mn := m, lineNo := line, stepNo := step, rs := rs, rt := rt, imm := v }
  | .memory, [a, b] => do
    let rt ← need line a (registerOf a)
    let vr ← need line b (memoryOf sg m b)
    return { mn := m, lineNo := line, stepNo := step, rs := vr.2, rt := rt, imm := vr.1 }
  | .regTarget, [a, b] => do
    let rs ← need line a (registerOf a)
    let v ← need line b (targetOf sg m b)
    return { mn := m, lineNo := line, stepNo := step, rs := rs, imm := v.1, jumpto := v.2 }
  | .target, [a] => do
    let v ← need line a (targetOf sg m a)
    return { mn := m, lineNo := line, stepNo := step, imm := v.1, jumpto := v.2 }
  | f, ops => .error (.arityMismatch line f.arity ops.length)

/-- The operand tokens after the mnemonic: separated by commas, whitespace around each (R94).  DESIGN CHOICE
(notes/assumptions/23.md): where there is any text after the mnemonic, n commas give n + 1 operands, an
empty text beside a comma being one of them; the spec does not say. -/
def operandTokens (t : Text) : List Text :=
  if trim t = [] then [] else (splitOn ',' t).map trim

/-- One instruction (R94): a mnemonic, whitespace, operands.  An unknown mnemonic is a
`SyntaxException` (R100). -/
def parseInstr (sg : Imm5Signed) (line step : Nat) (t : Text) : Except Failure Record :=
  let u := t.dropWhile isBlank
  match mnemonicOf (u.takeWhile fun c => !isBlank c) with
  | none => .error (.syntaxException line)
  | some m => parseOperands sg m line step (operandTokens (u.dropWhile fun c => !isBlank c))

/-- The label definition at the head of a line, if it has one, and the rest (R93, R102: the text up to
`:`).  A label that is no identifier is a `SyntaxException`. -/
def splitLabel (line : Nat) (t : Text) : Except Failure (Option Text × Text) :=
  match t.dropWhile (fun c => decide (c ≠ ':')) with
  | [] => .ok (none, t)
  | _ :: rest =>
    let name := trim (t.takeWhile fun c => decide (c ≠ ':'))
    if isIdent name then .ok (some name, rest) else .error (.syntaxException line)

/-- The label table: names and step numbers (R102, R104). -/
abbrev Labels := List (Text × Nat)

/-- The step of a label. -/
def Labels.find (ls : Labels) (name : Text) : Option Nat := List.lookup name ls

/-- Record a definition; a second one of the same name is a `SyntaxException` (R104). -/
def Labels.define (ls : Labels) (line step : Nat) (name : Option Text) : Except Failure Labels :=
  match name with
  | none => .ok ls
  | some n => if (ls.find n).isSome then .error (.syntaxException line) else .ok ((n, step) :: ls)

/-- What pass 1 hands to pass 2. -/
structure Pass1 where
  labels  : Labels
  records : List Record
  deriving DecidableEq, Repr

/-- Pass 1 from a line and step number on (R102, R103): the step number advances only when an
instruction is emitted. -/
def pass1From (sg : Imm5Signed) (line step : Nat) (ls : Labels) : List Text → Except Failure Pass1
  | [] => .ok ⟨ls, []⟩
  | t :: ts =>
    if trim t = [] then pass1From sg (line + 1) step ls ts
    else do
      let lr ← splitLabel line t
      let ls' ← ls.define line step lr.1
      if trim lr.2 = [] then pass1From sg (line + 1) step ls' ts
      else do
        let r ← parseInstr sg line step lr.2
        let p ← pass1From sg (line + 1) (step + 1) ls' ts
        return ⟨p.labels, r :: p.records⟩

/-- Pass 1 (R102). -/
def pass1 (sg : Imm5Signed) (src : List Text) : Except Failure Pass1 := pass1From sg 1 0 [] src

/-- `Resolve(rec)` (R106): a label becomes its step less the record's own. -/
def resolve (sg : Imm5Signed) (ls : Labels) (r : Record) : Except Failure Record :=
  match r.jumpto with
  | none => .ok r
  | some name =>
    match ls.find name with
    | none => .error (.labelNotFound name r.lineNo)
    | some target =>
      let off := (target : Int) - (r.stepNo : Int)
      if immInRange sg r.mn off then .ok { r with imm := off, jumpto := none }
      else .error (.rangeError r.lineNo)

/-- Pass 2 (R106, R91): resolve and encode, in step order. -/
def pass2 (om : OpMap) (sg : Imm5Signed) (ls : Labels) : List Record → Except Failure (List InstrWord)
  | [] => .ok []
  | r :: rs => do
    let r' ← resolve sg ls r
    let w ← encodeRecord om sg r'
    let ws ← pass2 om sg ls rs
    return w :: ws

/-- The words of a source text, one per instruction in step order. -/
def assembleWords (om : OpMap) (sg : Imm5Signed) (src : List Text) : Except Failure (List InstrWord) := do
  let p ← pass1 sg src
  pass2 om sg p.labels p.records

/-- The target or immediate of a record: the label's name while it is unresolved (R112). -/
def targetText (r : Record) : Text :=
  match r.jumpto with
  | some name => name
  | none => decimal r.imm

/-- `renderAssembly(rec)` (R112), in the operand order and syntax of R99. -/
def render (r : Record) : Text :=
  let sep : Text := [',', ' ']
  mnemonicText r.mn ++ ' ' ::
    match operandForm r.mn with
    | .threeRegs => registerText r.rd ++ sep ++ registerText r.rs ++ sep ++ registerText r.rt
    | .twoRegsImm => registerText r.rt ++ sep ++ registerText r.rs ++ sep ++ decimal r.imm
    | .memory => registerText r.rt ++ sep ++ decimal r.imm ++ '(' :: registerText r.rs ++ [')']
    | .regTarget => registerText r.rs ++ sep ++ targetText r
    | .target => targetText r

end Sys2Proof.Asm
end

