-- ==== Sys2Proof/Machine/Hex.lean ====
section
/-! DEFINITION. The two hex serialisations and the program loader (spec/30_encoding.md R108 to R111,
spec/70_reset_and_hazards.md R241). -/

namespace Sys2Proof.Asm

/-- The hex digit of a value below 16, letters in upper case (R110). -/
def hexDigit (n : Nat) : Char := if n < 10 then Char.ofNat (48 + n) else Char.ofNat (55 + n)

/-- The value of a hex digit, either letter case (R111). -/
def hexDigitValue (c : Char) : Option Nat :=
  if isDigit c then some (c.toNat - 48)
  else if 65 ≤ c.toNat ∧ c.toNat ≤ 70 then some (c.toNat - 55)
  else if 97 ≤ c.toNat ∧ c.toNat ≤ 102 then some (c.toNat - 87)
  else none

/-- The value of a hex token, most significant digit first; none if a character is no hex digit. -/
def hexValue (t : Text) : Option Nat :=
  t.foldl (fun acc c => acc.bind fun n => (hexDigitValue c).map fun d => 16 * n + d) (some 0)

/-- The four digits of a word, most significant first (R109, R110). -/
def hexCompact (w : InstrWord) : Text :=
  [hexDigit (w.toNat / 4096), hexDigit (w.toNat / 256 % 16), hexDigit (w.toNat / 16 % 16), hexDigit (w.toNat % 16)]

/-- The eight digits of a word in the full stream (R108). -/
def hexFull (w : InstrWord) : Text := ['0', '0', '0', '0'] ++ hexCompact w

/-- `assemble()` (R108): the full hex stream, one token per instruction. -/
def assemble (om : OpMap) (sg : Imm5Signed) (src : List Text) : Except Failure (List Text) :=
  (assembleWords om sg src).map fun ws => ws.map hexFull

/-- `assembleA()` (R109): the compact hex stream. -/
def assembleA (om : OpMap) (sg : Imm5Signed) (src : List Text) : Except Failure (List Text) :=
  (assembleWords om sg src).map fun ws => ws.map hexCompact

/-- The lines of a text: separated by line feeds, the last line feed optional (R110). -/
def lines (t : Text) : List Text :=
  match (splitOn '\n' t).reverse with
  | [] :: ps => ps.reverse
  | ps => ps.reverse

/-- A stream as text, a line feed after each line (R110).  R110 leaves the last one optional; the encoder's
text always has it: DESIGN CHOICE (notes/assumptions/20.md). -/
def unlines : List Text → Text
  | [] => []
  | l :: ls => l ++ '\n' :: unlines ls

/-- One line of the full stream (R111): 8 hex digits, the value at most 0xFFFF, decoded with line
and step number `k`. -/
def loadLine (om : OpMap) (k : Nat) (t : Text) : Except Failure Loaded :=
  if t.length ≠ 8 then .error (.syntaxException k)
  else
    match hexValue t with
    | none => .error (.syntaxException k)
    | some v => if 65535 < v then .error (.syntaxException k) else decodeRecord om (BitVec.ofNat 16 v) k k

/-- The loader from line `k` on: the first failure aborts the load. -/
def loadFrom (om : OpMap) (k : Nat) : List Text → Except Failure (List Loaded)
  | [] => .ok []
  | t :: ts => do
    let p ← loadLine om k t
    let ps ← loadFrom om (k + 1) ts
    return p :: ps

/-- `loadProgram(hexLines)` (R111, R241). -/
def loadProgram (om : OpMap) (ts : List Text) : Except Failure (List Loaded) := loadFrom om 0 ts

/-- Source text to the text of the full stream (R108, R110). -/
def assembleText (om : OpMap) (sg : Imm5Signed) (src : Text) : Except Failure Text :=
  (assemble om sg (lines src)).map unlines

/-- Source text to the text of the compact stream (R109, R110). -/
def assembleAText (om : OpMap) (sg : Imm5Signed) (src : Text) : Except Failure Text :=
  (assembleA om sg (lines src)).map unlines

/-- The program of a stream's text (R110, R111). -/
def loadText (om : OpMap) (t : Text) : Except Failure (List Loaded) := loadProgram om (lines t)

end Sys2Proof.Asm
end

