-- ==== Sys2Proof/Machine/HostInterface.lean ====
section
/-! DEFINITION. What the host does around a run: start-up (spec/70_reset_and_hazards.md R240 to R242), register and
memory access (spec/10_state.md R26, spec/20_memory.md R65), cancellation, kill and the watchdog
(spec/60_exceptions.md R220 to R223), what it gets back (R224) and the outcome codes (R212). -/

namespace Sys2Proof.Machine

/-! ### Starting a run -/

/-- A freshly built run (R36, R240): `pc` 0, registers `INIT_R`, memory `INIT_M`, the loaded program,
status `Running`, `cancel` deasserted.  `kill` deasserted is DESIGN CHOICE (notes/assumptions/18.md): the
spec names no start value for it.  `draws` is the model's own counter of free values used by earlier runs. -/
def State.start (p : Params) (prog : List Loaded) (initR : Vector Word 8) (initM : Memory) (draws : Nat) :
    State where
  params  := p
  program := prog
  pc      := 0
  regs    := initR
  mem     := initM
  status  := .running
  cancel  := false
  kill    := false
  draws   := draws

/-- Pre-seeding the memory of a run to come (R55, R65): each store under the policy of R52. -/
def preseed (p : Params) : List (Word × Word) → Memory → Except Fault Memory
  | [], m => .ok m
  | (a, v) :: cs, m =>
    if p.addrValid a then preseed p cs (m.write a.toNat v) else .error (.memoryFault a 0)

/-- What can keep a run from starting. -/
inductive StartFailure where
  /-- The assembly or the load failed (R107, R111, R241). -/
  | build (f : Failure)
  /-- A pre-seeded address does not exist (R52). -/
  | seed (e : Fault)
  deriving DecidableEq, Repr

/-- Load a stream, build the state and start (R242, steps 2 to 4).  Where the stream does not load and a
seed's address does not exist, the load failure is the one reported: DESIGN CHOICE
(notes/assumptions/21.md), since R242 gives steps 2 and 3 no observable order. -/
def launch (om : OpMap) (p : Params) (stream : List Text) (initR : Vector Word 8) (seeds : List (Word × Word))
    (draws : Nat) : Except StartFailure State :=
  match Asm.loadProgram om stream with
  | .error f => .error (.build f)
  | .ok prog =>
    match preseed p seeds [] with
    | .error e => .error (.seed e)
    | .ok m => .ok (State.start p prog initR m draws)

/-- Assemble a source text, then launch it (R242, steps 1 to 4). -/
def assembleAndLaunch (om : OpMap) (p : Params) (src : List Text) (initR : Vector Word 8)
    (seeds : List (Word × Word)) (draws : Nat) : Except StartFailure State :=
  match Asm.assemble om p.imm5Signed src with
  | .error f => .error (.build f)
  | .ok stream => launch om p stream initR seeds draws

/-! ### Register and memory access by the host -/

/-- The index names a register (R26). -/
def hostIndexOk (i : Int) : Bool := decide (0 ≤ i) && decide (i ≤ 7)

/-- Host `get` of a register (R26, R211 b).  The spec names no moment for the call; it is allowed at every
run status, a running machine's included: DESIGN CHOICE (notes/assumptions/19.md).  A bad index fails the
call and leaves the run as it was, a running one able to go on: DESIGN CHOICE (notes/assumptions/22.md). -/
def State.hostGet (s : State) (i : Int) : Except Fault Word :=
  if hostIndexOk i then .ok (s.reg (BitVec.ofInt 3 i)) else .error (.registerIndexFault i)

/-- Host `set` of a register (R26, R211 b), at every run status: DESIGN CHOICE (notes/assumptions/19.md).  A
bad index fails the call and leaves the run as it was: DESIGN CHOICE (notes/assumptions/22.md). -/
def State.hostSet (s : State) (i : Int) (v : Word) : Except Fault State :=
  if hostIndexOk i then .ok (s.setReg (BitVec.ofInt 3 i) v) else .error (.registerIndexFault i)

/-- Host read of data memory, after the run (R65, R224): none while it runs. -/
def State.hostReadMem (s : State) (a : Word) : Option (Except Fault Word) :=
  if s.status = .running then none else some (s.memRead a)

/-- What the host is given when a run has ended (R224): status, final PC and every register; memory
is not surfaced. -/
structure RunReport where
  status : RunStatus
  pc     : Word
  regs   : List (Nat × Word)
  deriving DecidableEq, Repr

/-- The report of an ended run (R224, R225). -/
def State.report (s : State) : Option RunReport :=
  if s.status = .running then none
  else some ⟨s.status, s.pc, (List.range 8).map fun i => (i, s.reg (BitVec.ofNat 3 i))⟩

/-! ### Cancellation, kill and the watchdog -/

/-- The host requests cancellation (R220). -/
def State.requestCancel (s : State) : State := { s with cancel := true }

/-- The host forces termination (R222). -/
def State.requestKill (s : State) : State := { s with kill := true }

/-- Up to `n` steps, staying where a step gives no next state. -/
def runSteps : Nat → State → State
  | 0, s => s
  | n + 1, s =>
    match step s with
    | .next t => runSteps n t
    | .fault _ => s
    | .refused _ => s

/-- The watchdog (R223): wait, request cancellation, wait again, kill.  The two arguments are how
many steps the run takes within `T_GRACE` and within `T_KILL`; no source determines them (R245). -/
def watchdog (graceSteps killSteps : Nat) (s : State) : State :=
  let s1 := runSteps graceSteps s
  if s1.status ≠ .running then s1
  else
    let s2 := runSteps killSteps s1.requestCancel
    if s2.status ≠ .running then s2 else runSteps 1 s2.requestKill

/-! ### The outcome codes (R212) -/

/-- The code of a failure before the run. -/
def failureCode : Failure → Option Nat
  | .syntaxException _ => some 1
  | .arityMismatch _ _ _ => some 2
  | .malformedOperand _ _ => some 3
  | .invalidInstructionKind _ _ _ => some 4
  | .labelNotFound _ _ => some 5
  | .rangeError _ => some 6
  | .unresolvedTarget _ => none

/-- The code of a fatal error. -/
def faultCode : Fault → Nat
  | .memoryFault _ _ => 7
  | .registerIndexFault _ => 8
  | .invalidInstructionKind _ => 4

/-- The code of an ended run. -/
def statusCode : RunStatus → Option Nat
  | .running => none
  | .halted => some 0
  | .cancelled => some 9
  | .killed => some 10
  | .faulted e => some (faultCode e)

end Sys2Proof.Machine
end

