-- ==== Sys2Proof/Machine/Interface.lean ====
section
/-! DEFINITION. The execution unit `EXU` at its ports (spec/10_state.md R32): one combinational function of the
decoded record, the PC, the register read data and the memory read data.  `DEC` and `ENC` are `dec`
and `encodeRecord` of Sys2Proof/Decode.lean.  A port group whose enable is low is `none`; its other
wires mean nothing. -/

namespace Sys2Proof.Machine

/-- The output ports of `EXU` (R32). -/
structure ExuOut where
  /-- `next_pc`. -/
  nextPc   : Word
  /-- `rf_we`, `rf_wa`, `rf_wd`. -/
  rfWrite  : Option (RegIdx × Word)
  /-- `mem_re`, `mem_addr`. -/
  memRead  : Option Word
  /-- `mem_we`, `mem_addr`, `mem_wd`. -/
  memWrite : Option (Word × Word)
  /-- `fault`: the address does not exist. -/
  fault    : Bool
  deriving DecidableEq, Repr

/-- The ports of an instruction that writes one register and advances. -/
def ExuOut.result (pc : Word) (wa : RegIdx) (wd : Word) : ExuOut :=
  ⟨pc + 1, some (wa, wd), none, none, false⟩

/-- The ports of an instruction that only sets the next PC. -/
def ExuOut.goTo (t : Word) : ExuOut := ⟨t, none, none, none, false⟩

/-- The ports of a jump that writes the link register. -/
def ExuOut.link (pc t : Word) : ExuOut := ⟨t, some (7, pc + 1), none, none, false⟩

/-- `mem_addr` of LW and SW (R169). -/
def exuMemAddr (p : Params) (m : Mnemonic) (f : Fields) (rsData : Word) : Word :=
  rsData + ext5 p.imm5Signed m f.imm5

/-- The comparison of SLTU and SLTIU (R126, R150). -/
def exuLtu (p : Params) (a b : Word) : Word :=
  if p.sltuUnsigned then boolWord (a.ult b) else boolWord (a.slt b)

/-- The execution unit (R32, with the instruction rules of the 40_ to 44_ files).  What the other ports
carry while `fault` is high R32 leaves open.  DESIGN CHOICE (notes/assumptions/17.md): `mem_re` of LW, or
`mem_we` with `mem_wd` of SW, stays asserted, `rf_we` is low, `next_pc` is `pc`, and the controller
(`State.applyExu`) discards the write. -/
def exu (p : Params) (m : Mnemonic) (f : Fields) (pc rs rt x0 rdata : Word) : ExuOut :=
  match m with
  | .and => .result pc f.rd (rs &&& rt)
  | .or => .result pc f.rd (rs ||| rt)
  | .xor => .result pc f.rd (rs ^^^ rt)
  | .add => .result pc f.rd (rs + rt)
  | .sub => .result pc f.rd (rs - rt)
  | .slt => .result pc f.rd (boolWord (rs.slt rt))
  | .sltu => .result pc f.rd (exuLtu p rs rt)
  | .sll => .result pc f.rt (rs <<< zext5 f.imm5)
  | .srl => .result pc f.rt (rs >>> zext5 f.imm5)
  | .sra => .result pc f.rt (rs.sshiftRight' (zext5 f.imm5))
  | .ror => .result pc f.rt (rs.rotateRight f.imm5.toNat)
  | .andi => .result pc f.rt (rs &&& ext5 p.imm5Signed .andi f.imm5)
  | .candi => .result pc f.rt (rs &&& ext5 p.imm5Signed .candi f.imm5)
  | .ori => .result pc f.rt (rs ||| ext5 p.imm5Signed .ori f.imm5)
  | .xori => .result pc f.rt (rs ^^^ ext5 p.imm5Signed .xori f.imm5)
  | .addi => .result pc f.rt (rs + ext5 p.imm5Signed .addi f.imm5)
  | .slti => .result pc f.rt (boolWord (rs.slt (ext5 p.imm5Signed .slti f.imm5)))
  | .sltiu => .result pc f.rt (exuLtu p rs (ext5 p.imm5Signed .sltiu f.imm5))
  | .lw =>
    let ea := exuMemAddr p .lw f rs
    if p.addrValid ea then ⟨pc + 1, some (f.rt, rdata), some ea, none, false⟩
    else ⟨pc, none, some ea, none, true⟩
  | .sw =>
    let ea := exuMemAddr p .sw f rs
    if p.addrValid ea then ⟨pc + 1, none, none, some (ea, rt), false⟩
    else ⟨pc, none, none, some (ea, rt), true⟩
  | .beqz => .goTo (if rs = 0 then pc + sext8 f.imm8 else pc + 1)
  | .bnez => .goTo (if rs = 0 then pc + 1 else pc + sext8 f.imm8)
  | .bltz => .goTo (if rs.msb then pc + sext8 f.imm8 else pc + 1)
  | .bgez => .goTo (if rs.msb then pc + 1 else pc + sext8 f.imm8)
  | .bgtz => .goTo (if rs.msb ∨ rs = 0 then pc + 1 else pc + sext8 f.imm8)
  | .blez => .goTo (if rs.msb ∨ rs = 0 then pc + sext8 f.imm8 else pc + 1)
  | .jr => .goTo (rs + sext8 f.imm8)
  | .jalr => .link pc (rs + sext8 f.imm8)
  | .j => .goTo (pc + sext11 f.imm11)
  | .jal => .link pc (pc + sext11 f.imm11)
  | .set => .result pc 0 (zext11 f.imm11)
  | .sset => .result pc 0 (x0 <<< 11 ||| zext11 f.imm11)

/-- What the run controller does with the ports (R33): a fault ends the run with nothing written, whatever
the write ports carry beside it (notes/assumptions/17.md),
else at most one register write and one memory write, and the next PC. -/
def State.applyExu (s : State) (addr : Word) (o : ExuOut) : Host.Outcome State Fault Refusal :=
  if o.fault then .fault (.memoryFault addr s.pc)
  else .next { s with
    regs := match o.rfWrite with | none => s.regs | some (r, v) => (s.setReg r v).regs
    mem := match o.memWrite with | none => s.mem | some (a, v) => s.mem.write a.toNat v
    pc := o.nextPc }

/-- The record's execution through the ports: register and memory read data in, writes out. -/
def State.executeAtPorts (s : State) (m : Mnemonic) (f : Fields) : Host.Outcome State Fault Refusal :=
  let addr := exuMemAddr s.params m f (s.reg f.rs)
  s.applyExu addr (exu s.params m f s.pc (s.reg f.rs) (s.reg f.rt) (s.reg 0) (s.mem.read addr.toNat))

end Sys2Proof.Machine
end

