-- ==== Sys2Proof/Safety.lean ====
section
/-! DEFINITION. The terms claims are written in: what one instruction changes and leaves (its frame), the
invariant of a run, and which ends of a run count. -/

namespace Sys2Proof.Machine

/-- An instruction leaves all of a run but `pc`, registers and memory as it was. -/
def SameRun (s t : State) : Prop :=
  t.params = s.params ∧ t.program = s.program ∧ t.status = s.status ∧ t.cancel = s.cancel ∧
    t.kill = s.kill ∧ t.draws = s.draws

/-- Every data-memory word reads as before. -/
def SameMemory (s t : State) : Prop := t.mem = s.mem ∧ ∀ a, t.mem.read a = s.mem.read a

/-- `t` is `s` with register `rd` holding `v` and the PC at `npc`, nothing else changed. -/
def RegisterStep (s t : State) (rd : RegIdx) (v npc : Word) : Prop :=
  t.reg rd = v ∧ (∀ r, r ≠ rd → t.reg r = s.reg r) ∧ t.pc = npc ∧ SameMemory s t ∧ SameRun s t

/-- `t` is `s` with the PC at `npc`, nothing else changed. -/
def PcStep (s t : State) (npc : Word) : Prop :=
  (∀ r, t.reg r = s.reg r) ∧ t.pc = npc ∧ SameMemory s t ∧ SameRun s t

/-- `t` is `s` with the word at address `ea` holding `v` and the PC advanced, nothing else changed. -/
def StoreStep (s t : State) (ea v : Word) : Prop :=
  (∀ r, t.reg r = s.reg r) ∧ t.pc = s.pc + 1 ∧ t.mem.read ea.toNat = v ∧
    (∀ a, a ≠ ea.toNat → t.mem.read a = s.mem.read a) ∧ SameRun s t

/-- The state agrees with its run status: a halted PC is outside the program (R34), a cancelled run
stands at a fetchable step (R221), a memory fault is precise (R213), a killed run drew a free value, and a register index fault ends
no run (DESIGN CHOICE, notes/assumptions/22.md). -/
def State.StatusOk (s : State) : Prop :=
  match s.status with
  | .running => True
  | .halted => s.pcInProgram = false
  | .cancelled => s.pcInProgram = true ∧ s.cancel = true
  | .killed => s.kill = true ∧ 1 ≤ s.draws
  | .faulted (.memoryFault ea st) =>
    s.pcInProgram = true ∧ st = s.pc ∧ s.params.addrValid ea = false
  | .faulted (.registerIndexFault _) => False
  | .faulted (.invalidInstructionKind _) => True

/-- The invariant of a run: memory in canonical form and only at addresses that exist, the status
agreeing with the state. -/
def State.Inv (s : State) : Prop := s.mem.wf = true ∧ s.mem.within s.params = true ∧ s.StatusOk

/-- The next step executes an instruction (R33). -/
def State.Executing (s : State) : Prop :=
  s.status = .running ∧ s.kill = false ∧ s.cancel = false ∧ s.pcInProgram = true

/-- The run has ended (R225). -/
def State.Ended (s : State) : Prop := s.status ≠ .running

/-- The run has a completed result: only a halt is one (R225). -/
def State.Completed (s : State) : Prop := s.status = .halted

/-- The explicit next PC, if the instruction sets one in this state (R30): a taken branch, JR, JALR, J
and JAL. -/
def explicitTarget (i : Instr) (s : State) : Option Word :=
  match i with
  | .beqz rs imm8 => if (s.reg rs).toInt = 0 then some (s.pc + sext8 imm8) else none
  | .bnez rs imm8 => if (s.reg rs).toInt ≠ 0 then some (s.pc + sext8 imm8) else none
  | .bltz rs imm8 => if (s.reg rs).toInt < 0 then some (s.pc + sext8 imm8) else none
  | .bgez rs imm8 => if 0 ≤ (s.reg rs).toInt then some (s.pc + sext8 imm8) else none
  | .bgtz rs imm8 => if 0 < (s.reg rs).toInt then some (s.pc + sext8 imm8) else none
  | .blez rs imm8 => if (s.reg rs).toInt ≤ 0 then some (s.pc + sext8 imm8) else none
  | .jr rs imm8 => some (s.reg rs + sext8 imm8)
  | .jalr rs imm8 => some (s.reg rs + sext8 imm8)
  | .j imm11 => some (s.pc + sext11 imm11)
  | .jal imm11 => some (s.pc + sext11 imm11)
  | _ => none

/-- The register an instruction names as its destination in a field, if any (R83). -/
def namedDest (i : Instr) : Option RegIdx :=
  match i with
  | .and rd _ _ | .or rd _ _ | .xor rd _ _ | .add rd _ _ | .sub rd _ _ | .slt rd _ _ | .sltu rd _ _ => some rd
  | .sll rt _ _ | .srl rt _ _ | .sra rt _ _ | .ror rt _ _ | .andi rt _ _ | .candi rt _ _ | .ori rt _ _
  | .xori rt _ _ | .addi rt _ _ | .slti rt _ _ | .sltiu rt _ _ | .lw rt _ _ => some rt
  | _ => none

/-- The one register an instruction may write: 0 for SET and SSET (R24), 7 for JAL and JALR (R25), else the
named destination. -/
def writtenRegister (i : Instr) : Option RegIdx :=
  match i with
  | .set _ | .sset _ => some 0
  | .jal _ | .jalr _ _ => some 7
  | _ => namedDest i

/-- The load and the store. -/
def isMemoryOp (i : Instr) : Bool :=
  match i with
  | .lw _ _ _ | .sw _ _ _ => true
  | _ => false

/-- The effective address of the load or the store (R169). -/
def memoryAddress (i : Instr) (s : State) : Option Word :=
  match i with
  | .lw _ rs imm5 => some (s.effectiveAddress .lw rs imm5)
  | .sw _ rs imm5 => some (s.effectiveAddress .sw rs imm5)
  | _ => none

/-- An illegal word of the reference map (R81): opcode 2, 3, 17, 18 or 19, or opcode 0 with func 1. -/
def illegalWord (w : InstrWord) : Prop :=
  w.toNat / 2048 = 2 ∨ w.toNat / 2048 = 3 ∨ w.toNat / 2048 = 17 ∨ w.toNat / 2048 = 18 ∨
    w.toNat / 2048 = 19 ∨ (w.toNat / 2048 = 0 ∧ w.toNat % 4 = 1)

/-- The word patterns of R78, bit 15 first: `ooooo sss ttt ddd ff`. -/
def patternR (op : BitVec 5) (rs rt rd : RegIdx) (fn : BitVec 2) : InstrWord := op ++ rs ++ rt ++ rd ++ fn

/-- `ooooo sss ttt iiiii` (R78). -/
def patternI (op : BitVec 5) (rs rt : RegIdx) (imm5 : BitVec 5) : InstrWord := op ++ rs ++ rt ++ imm5

/-- `ooooo sss iiiiiiii` (R78). -/
def patternB (op : BitVec 5) (rs : RegIdx) (imm8 : BitVec 8) : InstrWord := op ++ rs ++ imm8

/-- `ooooo iiiiiiiiiii` (R78). -/
def patternJ (op : BitVec 5) (imm11 : BitVec 11) : InstrWord := op ++ imm11

/-- Under the reference map the word is that instruction's, both ways (R78, R88, R91). -/
def IsWordOf (w : InstrWord) (i : Instr) : Prop :=
  decodeWord OpMap.reference w = some i ∧ encode OpMap.reference i = w

end Sys2Proof.Machine

namespace Sys2Proof.Asm

/-- The label a source line defines, if any (R102). -/
def lineLabel (t : Text) : Option Text :=
  match splitLabel 0 t with
  | .ok (name, _) => name
  | .error _ => none

/-- What a source line holds after its label definition (R102). -/
def lineBody (t : Text) : Text :=
  match splitLabel 0 t with
  | .ok (_, rest) => rest
  | .error _ => []

/-- The line holds an instruction: it is neither blank nor a bare label (R102). -/
def hasInstr (t : Text) : Bool := decide (trim (lineBody t) ≠ [])

/-- How many instructions the first `k` lines of a source hold. -/
def instrsBefore (src : List Text) (k : Nat) : Nat := (src.take k).countP hasInstr

end Sys2Proof.Asm
end

