-- ==== Sys2Proof/Certificates/Slice0/Obligations.lean ====
section
/-! DEFINITION. The statements for the provers, from the numbered rules of spec/.  Each docstring names the rule
or, where a clause is the model's own, the log entry. -/

open Sys2Proof Sys2Proof.Machine Sys2Proof.Asm

/-! ### Words and instructions -/

/-- Under every opcode map consistent with R75 to R77, every instruction decodes from its own word, with
every operand at every value (R88, R91). -/
def Obligations.DecodeOfEncodeIsTheInstruction : Prop :=
  ∀ om : OpMap, om.Consistent → ∀ i : Instr, decodeWord om (encode om i) = some i

/-- R92: word to record to word, and well-formed record to word to record. -/
def Obligations.RecordsAndWordsRoundTrip : Prop :=
  ∀ (om : OpMap) (sg : Imm5Signed), om.Consistent →
    (∀ (w : InstrWord) (line step : Nat) (p : Loaded), decodeRecord om w line step = .ok p →
      encodeRecord om sg (p.instr.toRecord sg line step) = .ok w) ∧
    (∀ r : Record, r.wf sg = true → ∃ w p, encodeRecord om sg r = .ok w ∧
      decodeRecord om w r.lineNo r.stepNo = .ok p ∧
      p.instr.toRecord sg p.lineNo p.stepNo = r)

/-- R81: under a consistent map exactly the words whose (opcode, func) has no mnemonic fail, with the
word, line and step; under the reference map these are the listed ones, and every other word is one
instruction with no bit of it meaningless. -/
def Obligations.IllegalWordsAreExactlyThese : Prop :=
  (∀ (om : OpMap) (w : InstrWord) (line step : Nat), om.Consistent →
    (decodeRecord om w line step = .error (.invalidInstructionKind w line step) ↔
      ∀ m, ¬ (om.opcode m = opcodeOf w ∧ (m.format = .r → om.func m = (Fields.ofWord w).func)))) ∧
  ∀ (w : InstrWord) (line step : Nat),
    (illegalWord w →
      decodeRecord OpMap.reference w line step = .error (.invalidInstructionKind w line step)) ∧
    (¬ illegalWord w → ∃ i, decodeRecord OpMap.reference w line step = .ok ⟨i, line, step⟩ ∧
      IsWordOf w i ∧ ∀ v, IsWordOf v i → v = w)

/-- The decoder vectors of spec/95_test_vectors.md section 2.1. -/
def Obligations.DecoderVectors : Prop :=
  decodeWord OpMap.reference 0x0000 = some (.and 0 0 0) ∧
  decodeWord OpMap.reference 0x0001 = none ∧
  decodeWord OpMap.reference 0x07FF = some (.xor 7 7 7) ∧
  decodeWord OpMap.reference 0x0A64 = some (.add 1 2 3) ∧
  decodeWord OpMap.reference 0x1000 = none ∧
  decodeWord OpMap.reference 0x1800 = none ∧
  decodeWord OpMap.reference 0x8800 = none ∧
  decodeWord OpMap.reference 0x8FFF = none ∧
  decodeWord OpMap.reference 0x9000 = none ∧
  decodeWord OpMap.reference 0x9800 = none ∧
  decodeWord OpMap.reference 0xA103 = some (.beqz 1 3) ∧
  decodeWord OpMap.reference 0xAAFC = some (.bnez 2 0xFC) ∧
  decodeWord OpMap.reference 0xE400 = some (.j 0x400) ∧
  decodeWord OpMap.reference 0xF7FF = some (.set 2047) ∧
  decodeWord OpMap.reference 0xFFFF = some (.sset 2047)

/-- R75: the format is a function of the opcode alone, and a decoded instruction is of that format. -/
def Obligations.FormatFollowsTheOpcode : Prop :=
  (∀ op : BitVec 5, fmt op =
    if op.toNat ∈ [0, 1] then some .r
    else if op.toNat ∈ [2, 3, 18, 19] then none
    else if op.toNat ≤ 17 then some .i
    else if op.toNat ≤ 27 then some .b
    else some .j) ∧
  ∀ (om : OpMap) (w : InstrWord) (i : Instr), decodeWord om w = some i →
    fmt (opcodeOf w) = some i.mnemonic.format

/-- R91: the four layouts, the range check, the refusal of an unresolved label, and that the decoder
takes the word back. -/
def Obligations.EncoderPlacesFieldsAndChecksRange : Prop :=
  ∀ (om : OpMap) (sg : Imm5Signed) (r : Record),
    (r.jumpto = none → immInRange sg r.mn r.imm = true → ∃ w, encodeRecord om sg r = .ok w ∧
      w.toNat = (om.opcode r.mn).toNat * 2 ^ 11 +
        match r.mn.format with
        | .r => r.rs.toNat * 2 ^ 8 + r.rt.toNat * 2 ^ 5 + r.rd.toNat * 2 ^ 2 + (om.func r.mn).toNat
        | .i => r.rs.toNat * 2 ^ 8 + r.rt.toNat * 2 ^ 5 + (r.imm % 2 ^ 5).toNat
        | .b => r.rs.toNat * 2 ^ 8 + (r.imm % 2 ^ 8).toNat
        | .j => (r.imm % 2 ^ 11).toNat) ∧
    (r.jumpto = none → immInRange sg r.mn r.imm = false → encodeRecord om sg r = .error (.rangeError r.lineNo)) ∧
    (r.jumpto ≠ none → ∀ w, encodeRecord om sg r ≠ .ok w) ∧
    (∀ w, om.Consistent → encodeRecord om sg r = .ok w → decodeWord om w = some r.toInstr)

/-- R11: what each extension does to the bits, and the ranges it yields. -/
def Obligations.ExtensionsFillAsStated : Prop :=
  (∀ (v : BitVec 5) (k : Nat), k < 32 →
    (zext5 v).getLsbD k = (decide (k < 5) && v.getLsbD k) ∧
    (sext5 v).getLsbD k = v.getLsbD (min k 4)) ∧
  (∀ (v : BitVec 8) (k : Nat), k < 32 → (sext8 v).getLsbD k = v.getLsbD (min k 7)) ∧
  (∀ (v : BitVec 11) (k : Nat), k < 32 →
    (zext11 v).getLsbD k = (decide (k < 11) && v.getLsbD k) ∧
    (sext11 v).getLsbD k = v.getLsbD (min k 10)) ∧
  (∀ n : Int, (-16 ≤ n ∧ n ≤ 15 ↔ ∃ v, (sext5 v).toInt = n) ∧ (0 ≤ n ∧ n ≤ 31 ↔ ∃ v, (zext5 v).toInt = n) ∧
    (-128 ≤ n ∧ n ≤ 127 ↔ ∃ v, (sext8 v).toInt = n) ∧
    (0 ≤ n ∧ n ≤ 2047 ↔ ∃ v, (zext11 v).toInt = n) ∧ (-1024 ≤ n ∧ n ≤ 1023 ↔ ∃ v, (sext11 v).toInt = n))

/-- R84, R85, R86: the operand value and range of each mnemonic's immediate.  imm5 is extended by
`IMM5_SIGNED`, the shifts unsigned whatever it is; imm8 is sign-extended; imm11 is zero-extended for
SET and SSET, sign-extended for J and JAL. -/
def Obligations.ImmediateValuesAndRanges : Prop :=
  (∀ (sg : Imm5Signed) (m : Mnemonic) (v : BitVec 5), ext5 sg m v = if sg.signed m then sext5 v else zext5 v) ∧
  (∀ (sg : Imm5Signed), ∀ m ∈ [Mnemonic.sll, .srl, .sra, .ror], sg.signed m = false ∧ immRange sg m = some (0, 31)) ∧
  (∀ m ∈ [Mnemonic.andi, .candi, .ori, .xori],
    Imm5Signed.default.signed m = false ∧ immRange Imm5Signed.default m = some (0, 31)) ∧
  (∀ m ∈ [Mnemonic.addi, .slti, .sltiu, .lw, .sw],
    Imm5Signed.default.signed m = true ∧ immRange Imm5Signed.default m = some (-16, 15)) ∧
  (∀ (sg : Imm5Signed) (m : Mnemonic) (f : Fields) (line st : Nat),
    (m.format = .i → ((m.build f).toRecord sg line st).imm = (ext5 sg m f.imm5).toInt) ∧
    (m.format = .b → ((m.build f).toRecord sg line st).imm = (sext8 f.imm8).toInt ∧
      immRange sg m = some (-128, 127)) ∧
    (m = .set ∨ m = .sset → ((m.build f).toRecord sg line st).imm = (zext11 f.imm11).toInt ∧
      immRange sg m = some (0, 2047)) ∧
    (m = .j ∨ m = .jal → ((m.build f).toRecord sg line st).imm = (sext11 f.imm11).toInt ∧
      immRange sg m = some (-1024, 1023)))

/-! ### The start of a run and the invariant -/

/-- R36: the value of every piece of state when a run starts, `INIT_R` and `INIT_M` the caller's. -/
def Obligations.StartOfRunValues : Prop :=
  ∀ (p : Params) (prog : List Loaded) (initR : Vector Word 8) (initM : Memory) (d : Nat),
    (State.start p prog initR initM d).pc = 0 ∧
    (∀ r : RegIdx, (State.start p prog initR initM d).reg r = initR[r.toFin]) ∧
    (∀ a, (State.start p prog initR initM d).mem.read a = initM.read a) ∧
    (State.start p prog initR initM d).program = prog ∧
    (State.start p prog initR initM d).status = .running ∧
    (State.start p prog initR initM d).cancel = false

/-- The reset state is a start of a run of the empty program, and its first step halts it at step 0.  That
`State.reset` holds the empty program is the model's choice (notes/assumptions/4.md, DESIGN CHOICE), R36's
`P` being the loaded program; that an empty program halts at once is R34's.  The registers and memory of that start are the model's choice (notes/assumptions/1.md, 3.md)
and no clause names their values; that no kill is asserted then is the model's choice too
(notes/assumptions/18.md). -/
def Obligations.ResetRunsTheEmptyProgram : Prop :=
  ∃ p initR initM d, State.reset = State.start p [] initR initM d ∧
    ∃ t, step State.reset = .next t ∧ t.status = .halted ∧ t.pc = 0

/-- The invariant holds at reset, and at the start of every run whose `INIT_M` was pre-seeded. -/
def Obligations.RunsStartInTheInvariant : Prop :=
  State.reset.Inv ∧
  ∀ (p : Params) (prog : List Loaded) (initR : Vector Word 8) (seeds : List (Word × Word)) (m : Memory)
    (d : Nat), preseed p seeds [] = .ok m → (State.start p prog initR m d).Inv

/-- From every state with the invariant (canonical memory, only addresses that exist, the status
agreeing with the state) a step keeps it. -/
def Obligations.StepKeepsTheInvariant : Prop :=
  ∀ s t : State, s.Inv → step s = .next t → t.Inv

/-- R63: no step changes the program store (nor the parameters), so what a step number fetches never
changes during a run; a store writes data memory only. -/
def Obligations.ProgramStoreIsImmutable : Prop :=
  (∀ s t : State, step s = .next t → t.program = s.program ∧ t.params = s.params) ∧
  (∀ (s : State) (n : Nat), (runSteps n s).program = s.program) ∧
  (∀ (s t u : State), step s = .next t → u.program = t.program → u.pc = s.pc → u.fetch = s.fetch)

/-- Two canonical memories that read alike are the same list, so that equal memories are equal data
(the model's own form, notes/assumptions/3.md). -/
def Obligations.CanonicalMemoriesAreDeterminedByTheirWords : Prop :=
  ∀ m m' : Memory, m.wf = true → m'.wf = true → (∀ a, m.read a = m'.read a) → m = m'

/-! ### The step and the run loop -/

/-- An executing machine runs the fetched record: the step is that instruction's execution, a fault of
it ending the run with nothing of it done (spec/10_state.md section 6). -/
def Obligations.StepRunsTheFetchedInstruction : Prop :=
  ∀ (s : State) (p : Loaded), s.Executing → s.fetch = some p →
    (∀ t, exec p.instr s = .next t → step s = .next t) ∧
    (∀ e, exec p.instr s = .fault e → step s = .next (s.recordFault e))

/-- A loaded program runs the words it was loaded from: the line at the PC decodes to the instruction
the step fetches and executes, a fault of it ending the run (R111, R241, spec/10_state.md section 6). -/
def Obligations.StepRunsTheLoadedWord : Prop :=
  ∀ (om : OpMap) (ts : List Text) (s : State) (prog : List Loaded), loadProgram om ts = .ok prog →
    s.program = prog → s.Executing →
    ∃ (t : Text) (v : Nat) (i : Instr), ts[s.pc.toNat]? = some t ∧ hexValue t = some v ∧ v < 2 ^ 16 ∧
      decodeWord om (BitVec.ofNat 16 v) = some i ∧ (∃ p, s.fetch = some p ∧ p.instr = i) ∧
      (∀ u, exec i s = .next u → step s = .next u) ∧
      (∀ e, exec i s = .fault e → step s = .next (s.recordFault e))

/-- R34: a PC outside the program halts the run with the PC it reached, `len(P)` for a run that falls off
its end; a cancellation ends it too; an empty program halts at once with `pc = 0`. -/
def Obligations.PcOutsideTheProgramHalts : Prop :=
  (∀ s : State, s.status = .running → s.kill = false →
    (s.pc.toInt < 0 ∨ (s.program.length : Int) ≤ s.pc.toInt) →
    ∃ t, step s = .next t ∧ t.status = .halted ∧ t.pc = s.pc ∧ (∀ r, t.reg r = s.reg r) ∧ SameMemory s t ∧
      t.program = s.program) ∧
  (∀ (p : Params) (initR : Vector Word 8) (initM : Memory) (d : Nat),
    ∃ t, step { State.start p [] initR initM d with kill := false } = .next t ∧ t.status = .halted ∧
      t.pc = 0) ∧
  (∀ (s t : State) (p : Loaded), s.Executing → s.fetch = some p → step s = .next t →
    t.pc.toInt = s.program.length → t.status = .running →
    ∃ u, step t = .next u ∧ u.status = .halted ∧ u.pc.toInt = s.program.length) ∧
  (∀ s : State, s.status = .running → s.kill = false → s.pcInProgram = true → s.cancel = true →
    ∃ t, step s = .next t ∧ t.status = .cancelled)

/-- R221: a cancellation seen at a step boundary ends the run `Cancelled`, in exactly the state after
the last completed step. -/
def Obligations.CancellationEndsTheRunBetweenSteps : Prop :=
  ∀ s : State, s.status = .running → s.kill = false → s.cancel = true → s.pcInProgram = true →
    ∃ t, step s = .next t ∧ t.status = .cancelled ∧ t.pc = s.pc ∧ (∀ r, t.reg r = s.reg r) ∧
      SameMemory s t ∧ t.program = s.program ∧ t.params = s.params

/-- A kill ends a running machine `Killed`; its program stays.  Nothing is said of its PC, registers
and memory words, which are free values (R222); that a kill precedes the other checks is the model's
choice (notes/assumptions/7.md). -/
def Obligations.KillEndsTheRun : Prop :=
  ∀ s : State, s.status = .running → s.kill = true →
    ∃ t, step s = .next t ∧ t.status = .killed ∧ t.program = s.program ∧ t.params = s.params ∧ t.mem.wf = true

/-- R31: a status other than `Running` is final; a run starts `Running` with `cancel` deasserted; a
program can read neither the status nor `cancel`. -/
def Obligations.EndedRunsStayAsTheyAre : Prop :=
  (∀ s : State, s.Ended → (∀ t, step s = .next t → t = s) ∧ (∀ n, runSteps n s = s) ∧
    step s.requestCancel = (match s.status with | .faulted e => .fault e | _ => .next s.requestCancel)) ∧
  (∀ p prog initR initM d, (State.start p prog initR initM d).status = .running ∧
    (State.start p prog initR initM d).cancel = false) ∧
  (∀ (i : Instr) (s : State) (st : RunStatus) (c : Bool),
    exec i { s with status := st, cancel := c } =
      match exec i s with
      | .next t => .next { t with status := st, cancel := c }
      | .fault e => .fault e
      | .refused r => .refused r)

/-- R35: the only inputs of a step are `pc`, registers, memory, the program (under its parameters) and
`cancel`; two runs from the same start that reach their natural halt end in the same state. -/
def Obligations.RunsAreDeterministic : Prop :=
  (∀ s u : State, s.status = .running → u.status = .running → s.kill = false → u.kill = false →
    u.params = s.params → u.program = s.program → u.pc = s.pc → u.regs = s.regs → u.mem = s.mem →
    u.cancel = s.cancel → ∀ t, step s = .next t → ∃ v, step u = .next v ∧ v.pc = t.pc ∧ v.regs = t.regs ∧
      v.mem = t.mem ∧ v.status = t.status) ∧
  (∀ (p : Params) (prog : List Loaded) (initR : Vector Word 8) (initM : Memory) (d d' n n' : Nat),
    (runSteps n (State.start p prog initR initM d)).status = .halted →
    (runSteps n' (State.start p prog initR initM d')).status = .halted →
    (runSteps n (State.start p prog initR initM d)).pc = (runSteps n' (State.start p prog initR initM d')).pc ∧
    (runSteps n (State.start p prog initR initM d)).regs =
      (runSteps n' (State.start p prog initR initM d')).regs ∧
    (runSteps n (State.start p prog initR initM d)).mem =
      (runSteps n' (State.start p prog initR initM d')).mem)

/-- Whatever the two wait bounds allow, the watchdog leaves an ended run, and a run that never ends by
itself is cancelled or killed, never halted (R223).  That it is killed only if no step fitted in the second
wait is not R223's: it rests on R220 (a request is seen at the next step boundary) and on counting the wait
bounds in steps, the model's reading (notes/assumptions/16.md, DEDUCED). -/
def Obligations.WatchdogEndsEveryRun : Prop :=
  ∀ (g k : Nat) (s : State), (watchdog g k s).Ended ∧
    (s.status = .running → s.cancel = false → s.kill = false →
      (∀ n, (runSteps n s).status = .running) →
      (watchdog g k s).status = .cancelled ∨ (watchdog g k s).status = .killed) ∧
    (s.status = .running → s.kill = false → 1 ≤ k → (watchdog g k s).status ≠ .killed)

/-- A jump with offset 0 loops on itself: an executing machine that fetches it never moves again
(spec/43_branch_jump.md R188, spec/95_test_vectors.md X4). -/
def Obligations.SelfJumpNeverHalts : Prop :=
  ∀ (s : State) (p : Loaded), s.Executing → s.fetch = some p → p.instr = .j 0 → ∀ n, runSteps n s = s

/-- R213: a memory fault is precise and final.  The run becomes `Faulted` with the PC still the
instruction's step number and nothing written, and no step follows. -/
def Obligations.MemoryFaultsArePrecise : Prop :=
  ∀ (s : State) (p : Loaded) (ea : Word), s.Executing → s.fetch = some p →
    memoryAddress p.instr s = some ea → s.params.addrValid ea = false →
    ∃ t, step s = .next t ∧ t.status = .faulted (.memoryFault ea s.pc) ∧ t.pc = s.pc ∧
      (∀ r, t.reg r = s.reg r) ∧ SameMemory s t ∧ t.program = s.program ∧ ¬ t.Completed ∧
      step t = .fault (.memoryFault ea s.pc) ∧ ∀ n, runSteps n t = t

/-- R211: only LW and SW fault, exactly when their address does not exist, recording the address and
the step number; a register index fault comes exactly from a host access outside 0..7. -/
def Obligations.FatalErrorsHaveTheseCausesOnly : Prop :=
  (∀ (i : Instr) (s : State) (e : Fault), exec i s = .fault e ↔
    ∃ ea, memoryAddress i s = some ea ∧ s.params.addrValid ea = false ∧ e = .memoryFault ea s.pc) ∧
  (∀ (i : Instr) (s : State), memoryAddress i s ≠ none ↔ isMemoryOp i = true) ∧
  (∀ (s : State) (i : Int) (v : Word),
    (s.hostGet i = .error (.registerIndexFault i) ↔ i < 0 ∨ 7 < i) ∧
    (s.hostSet i v = .error (.registerIndexFault i) ↔ i < 0 ∨ 7 < i))

/-- A host `get` reads and a host `set` writes the register of the index, the latter changing nothing else
(R26).  That both are allowed at every run status is the model's choice (notes/assumptions/19.md). -/
def Obligations.HostReachesEveryRegister : Prop :=
  ∀ (s : State) (r : RegIdx) (v : Word), s.hostGet r.toNat = .ok (s.reg r) ∧
    ∃ t, s.hostSet r.toNat v = .ok t ∧ t.reg r = v ∧ (∀ q, q ≠ r → t.reg q = s.reg q) ∧
      t.pc = s.pc ∧ SameMemory s t ∧ SameRun s t ∧ ∀ q : RegIdx, t.hostGet q.toNat = .ok (t.reg q)

/-- Every instruction of the table completes in every state, but LW and SW at an address that does not
exist; none is refused. -/
def Obligations.EveryInstructionCompletes : Prop :=
  ∀ (i : Instr) (s : State), (∀ ea, memoryAddress i s = some ea → s.params.addrValid ea = true) →
    ∃ t, exec i s = .next t ∧ SameRun s t

/-- R30: the PC advances by one unless the instruction set the next PC: a taken branch, JR, JALR, J or
JAL; a run starts at 0. -/
def Obligations.PcAdvancesUnlessSet : Prop :=
  (∀ (i : Instr) (s t : State), exec i s = .next t → t.pc = (explicitTarget i s).getD (s.pc + 1)) ∧
  (∀ p prog initR initM d, (State.start p prog initR initM d).pc = 0)

/-- A register changes only as an instruction's named destination, as the accumulator of SET and SSET, or
as the link register of JAL and JALR (R24, R25). -/
def Obligations.RegistersChangeOnlyAsNamed : Prop :=
  ∀ (i : Instr) (s t : State) (r : RegIdx), exec i s = .next t → t.reg r ≠ s.reg r →
    namedDest i = some r ∨ (r = 0 ∧ (i.mnemonic = .set ∨ i.mnemonic = .sset)) ∨
      (r = 7 ∧ (i.mnemonic = .jal ∨ i.mnemonic = .jalr))

/-- Every instruction performs at most one register write and at most one memory write, never both, and
touches nothing of the run but PC, registers and memory (spec/10_state.md section 6).  The register is
`writtenRegister`; the word is the one at SW's effective address, and every other form keeps all of memory. -/
def Obligations.AtMostOneWriteOfEachKind : Prop :=
  ∀ (i : Instr) (s t : State), exec i s = .next t →
    (∀ q, writtenRegister i ≠ some q → t.reg q = s.reg q) ∧
    (i.mnemonic ≠ .sw → SameMemory s t) ∧
    (i.mnemonic = .sw → (∀ q, t.reg q = s.reg q) ∧ ∃ ea, memoryAddress i s = some ea ∧
      ∀ b, b ≠ ea.toNat → t.mem.read b = s.mem.read b) ∧
    (∀ rt rs imm5, i = .sw rt rs imm5 → memoryAddress i s = some (s.effectiveAddress .sw rs imm5)) ∧
    ((∀ q, t.reg q = s.reg q) ∨ SameMemory s t) ∧ SameRun s t

/-- R172: memory is written by SW alone and read by LW alone. -/
def Obligations.OnlyLoadAndStoreTouchMemory : Prop :=
  (∀ (i : Instr) (s t : State), i.mnemonic ≠ .sw → exec i s = .next t → SameMemory s t) ∧
  (∀ (i : Instr) (s t : State) (m : Memory), i.mnemonic ≠ .lw → exec i s = .next t →
    ∃ u, exec i { s with mem := m } = .next u ∧ u.regs = t.regs ∧ u.pc = t.pc)

/-- R57: a read returns the word last written there, other words stay, and a repeated read answers the
same; over memories in canonical form (notes/assumptions/3.md). -/
def Obligations.ReadsReturnTheLastWrite : Prop :=
  ∀ (s : State) (a v : Word) (m : Memory), s.mem.wf = true → s.memWrite a v = .ok m →
    State.memRead { s with mem := m } a = .ok v ∧
    (∀ b, b ≠ a → State.memRead { s with mem := m } b = s.memRead b) ∧
    State.memWrite { s with mem := m } a v = .ok m

/-- R52: an access at an address where `MEM_VALID` is false is a `MemoryFault`; at any other a read gives
the word and a write stores it, every other word as before; the default `MEM_VALID` is
`0 ≤ a < MEM_WORDS`.  The stored word reads back in every memory of canonical form, which every step keeps
(`Obligations.StepKeepsTheInvariant`, notes/assumptions/3.md). -/
def Obligations.AccessesFollowMemValid : Prop :=
  (∀ (s : State) (a v : Word),
    (s.params.addrValid a = false → s.memRead a = .error (.memoryFault a s.pc) ∧
      s.memWrite a v = .error (.memoryFault a s.pc)) ∧
    (s.params.addrValid a = true → s.memRead a = .ok (s.mem.read a.toNat) ∧
      ∃ m, s.memWrite a v = .ok m ∧ (s.mem.wf = true → m.read a.toNat = v) ∧
        ∀ b, b ≠ a.toNat → m.read b = s.mem.read b)) ∧
  (∀ (words : Nat) (a : Word),
    (Params.default words).addrValid a = true ↔ 0 ≤ a.toInt ∧ a.toInt < words)

/-! ### The instructions' results

Each says the word of the instruction (R78), that it completes, its result, the next PC and its frame. -/

/-- AND, OR, XOR (R120, R121, R122). -/
def Obligations.RegisterLogicalResults : Prop :=
  ∀ (s : State) (rd rs rt : RegIdx),
    (IsWordOf (patternR 0 rs rt rd 0) (.and rd rs rt) ∧
      ∃ t, exec (.and rd rs rt) s = .next t ∧ RegisterStep s t rd (s.reg rs &&& s.reg rt) (s.pc + 1)) ∧
    (IsWordOf (patternR 0 rs rt rd 2) (.or rd rs rt) ∧
      ∃ t, exec (.or rd rs rt) s = .next t ∧ RegisterStep s t rd (s.reg rs ||| s.reg rt) (s.pc + 1)) ∧
    (IsWordOf (patternR 0 rs rt rd 3) (.xor rd rs rt) ∧
      ∃ t, exec (.xor rd rs rt) s = .next t ∧ RegisterStep s t rd (s.reg rs ^^^ s.reg rt) (s.pc + 1))

/-- ADD and SUB, modulo 2^32 (R123, R124). -/
def Obligations.RegisterArithmeticResults : Prop :=
  ∀ (s : State) (rd rs rt : RegIdx),
    (IsWordOf (patternR 1 rs rt rd 0) (.add rd rs rt) ∧
      ∃ t, exec (.add rd rs rt) s = .next t ∧
        RegisterStep s t rd (BitVec.ofInt 32 ((s.reg rs).toInt + (s.reg rt).toInt)) (s.pc + 1)) ∧
    (IsWordOf (patternR 1 rs rt rd 1) (.sub rd rs rt) ∧
      ∃ t, exec (.sub rd rs rt) s = .next t ∧
        RegisterStep s t rd (BitVec.ofInt 32 ((s.reg rs).toInt - (s.reg rt).toInt)) (s.pc + 1))

/-- SLT and SLTU, the latter under both values of `SLTU_UNSIGNED` (R125, R126). -/
def Obligations.RegisterComparisonResults : Prop :=
  ∀ (s : State) (rd rs rt : RegIdx),
    (IsWordOf (patternR 1 rs rt rd 2) (.slt rd rs rt) ∧
      ∃ t, exec (.slt rd rs rt) s = .next t ∧
        RegisterStep s t rd (if (s.reg rs).toInt < (s.reg rt).toInt then 1 else 0) (s.pc + 1)) ∧
    (IsWordOf (patternR 1 rs rt rd 3) (.sltu rd rs rt) ∧
      ∃ t, exec (.sltu rd rs rt) s = .next t ∧
        RegisterStep s t rd
          (if s.params.sltuUnsigned then (if (s.reg rs).toNat < (s.reg rt).toNat then 1 else 0)
           else if (s.reg rs).toInt < (s.reg rt).toInt then 1 else 0) (s.pc + 1))

/-- SLL, SRL, SRA and ROR by a count 0..31, the shifts as products and quotients by a power of two, the
rotation bit by bit and as R143 composes it (R140 to R143). -/
def Obligations.ShiftResults : Prop :=
  ∀ (s : State) (rt rs : RegIdx) (n : BitVec 5),
    (IsWordOf (patternI 4 rs rt n) (.sll rt rs n) ∧
      ∃ t, exec (.sll rt rs n) s = .next t ∧
        RegisterStep s t rt (BitVec.ofNat 32 ((s.reg rs).toNat * 2 ^ n.toNat)) (s.pc + 1)) ∧
    (IsWordOf (patternI 5 rs rt n) (.srl rt rs n) ∧
      ∃ t, exec (.srl rt rs n) s = .next t ∧
        RegisterStep s t rt (BitVec.ofNat 32 ((s.reg rs).toNat / 2 ^ n.toNat)) (s.pc + 1)) ∧
    (IsWordOf (patternI 6 rs rt n) (.sra rt rs n) ∧
      ∃ t, exec (.sra rt rs n) s = .next t ∧
        RegisterStep s t rt (BitVec.ofInt 32 ((s.reg rs).toInt / 2 ^ n.toNat)) (s.pc + 1)) ∧
    (IsWordOf (patternI 7 rs rt n) (.ror rt rs n) ∧
      ∃ t v, exec (.ror rt rs n) s = .next t ∧ RegisterStep s t rt v (s.pc + 1) ∧
        (∀ k, k < 32 → v.getLsbD k = (s.reg rs).getLsbD ((k + n.toNat) % 32)) ∧
        v = if n = 0 then s.reg rs else (s.reg rs >>> n.toNat) ||| (s.reg rs <<< (32 - n.toNat)))

/-- ANDI, ORI and XORI, the immediate extended by `IMM5_SIGNED`, whose default zero-extends them (R144,
R146, R147, R84). -/
def Obligations.ImmediateLogicalResults : Prop :=
  ∀ (s : State) (rt rs : RegIdx) (v : BitVec 5),
    (IsWordOf (patternI 8 rs rt v) (.andi rt rs v) ∧
      ∃ t, exec (.andi rt rs v) s = .next t ∧ RegisterStep s t rt
        (s.reg rs &&& (if s.params.imm5Signed.andi then sext5 v else zext5 v)) (s.pc + 1)) ∧
    (IsWordOf (patternI 10 rs rt v) (.ori rt rs v) ∧
      ∃ t, exec (.ori rt rs v) s = .next t ∧ RegisterStep s t rt
        (s.reg rs ||| (if s.params.imm5Signed.ori then sext5 v else zext5 v)) (s.pc + 1)) ∧
    (IsWordOf (patternI 11 rs rt v) (.xori rt rs v) ∧
      ∃ t, exec (.xori rt rs v) s = .next t ∧ RegisterStep s t rt
        (s.reg rs ^^^ (if s.params.imm5Signed.xori then sext5 v else zext5 v)) (s.pc + 1)) ∧
    (Imm5Signed.default.andi = false ∧ Imm5Signed.default.ori = false ∧ Imm5Signed.default.xori = false)

/-- CANDI computes as ANDI does, with its own entry of `IMM5_SIGNED`.  That its counterpart is ANDI is no
plain rule: it is the spec's decision D6 in R145, which the model follows (notes/assumptions/9.md, DEDUCED)
where U7's cautious reading would leave the result open. -/
def Obligations.CandiResult : Prop :=
  ∀ (s : State) (rt rs : RegIdx) (v : BitVec 5),
    (IsWordOf (patternI 9 rs rt v) (.candi rt rs v) ∧
      ∃ t, exec (.candi rt rs v) s = .next t ∧ RegisterStep s t rt
        (s.reg rs &&& (if s.params.imm5Signed.candi then sext5 v else zext5 v)) (s.pc + 1)) ∧
    (s.params.imm5Signed.candi = s.params.imm5Signed.andi → exec (.candi rt rs v) s = exec (.andi rt rs v) s) ∧
    Imm5Signed.default.candi = false

/-- ADDI, SLTI and SLTIU, the immediate extended by `IMM5_SIGNED`, whose default sign-extends them
(R148, R149, R150, R84). -/
def Obligations.ImmediateArithmeticResults : Prop :=
  ∀ (s : State) (rt rs : RegIdx) (v : BitVec 5),
    (IsWordOf (patternI 12 rs rt v) (.addi rt rs v) ∧
      ∃ t, exec (.addi rt rs v) s = .next t ∧ RegisterStep s t rt
        (BitVec.ofInt 32 ((s.reg rs).toInt + (if s.params.imm5Signed.addi then sext5 v else zext5 v).toInt))
        (s.pc + 1)) ∧
    (IsWordOf (patternI 13 rs rt v) (.slti rt rs v) ∧
      ∃ t, exec (.slti rt rs v) s = .next t ∧ RegisterStep s t rt
        (if (s.reg rs).toInt < (if s.params.imm5Signed.slti then sext5 v else zext5 v).toInt then 1 else 0)
        (s.pc + 1)) ∧
    (IsWordOf (patternI 14 rs rt v) (.sltiu rt rs v) ∧
      ∃ t, exec (.sltiu rt rs v) s = .next t ∧ RegisterStep s t rt
        (if s.params.sltuUnsigned then
          (if (s.reg rs).toNat < (if s.params.imm5Signed.sltiu then sext5 v else zext5 v).toNat then 1 else 0)
         else if (s.reg rs).toInt < (if s.params.imm5Signed.sltiu then sext5 v else zext5 v).toInt then 1 else 0)
        (s.pc + 1)) ∧
    (Imm5Signed.default.addi = true ∧ Imm5Signed.default.slti = true ∧ Imm5Signed.default.sltiu = true)

/-- LW (R169, R170): the whole word at `x[rs] + imm5`, the base unmodified unless it is the
destination; at an address that does not exist, a fault with nothing written. -/
def Obligations.LoadWordResult : Prop :=
  ∀ (s : State) (rt rs : RegIdx) (v : BitVec 5),
    IsWordOf (patternI 15 rs rt v) (.lw rt rs v) ∧ Imm5Signed.default.lw = true ∧
    s.effectiveAddress .lw rs v = s.reg rs + (if s.params.imm5Signed.lw then sext5 v else zext5 v) ∧
    (s.params.addrValid (s.effectiveAddress .lw rs v) = true → ∃ t, exec (.lw rt rs v) s = .next t ∧
      RegisterStep s t rt (s.mem.read (s.effectiveAddress .lw rs v).toNat) (s.pc + 1)) ∧
    (s.params.addrValid (s.effectiveAddress .lw rs v) = false →
      exec (.lw rt rs v) s = .fault (.memoryFault (s.effectiveAddress .lw rs v) s.pc) ∧
      ∀ p, s.Executing → s.fetch = some p → p.instr = .lw rt rs v →
        step s = .next (s.recordFault (.memoryFault (s.effectiveAddress .lw rs v) s.pc)))

/-- SW (R171): the whole register to the word at `x[rs] + imm5`, every other word as before; at an
address that does not exist, a fault with nothing written.  Over memories in canonical form. -/
def Obligations.StoreWordResult : Prop :=
  ∀ (s : State) (rt rs : RegIdx) (v : BitVec 5), s.mem.wf = true →
    IsWordOf (patternI 16 rs rt v) (.sw rt rs v) ∧ Imm5Signed.default.sw = true ∧
    s.effectiveAddress .sw rs v = s.reg rs + (if s.params.imm5Signed.sw then sext5 v else zext5 v) ∧
    (s.params.addrValid (s.effectiveAddress .sw rs v) = true → ∃ t, exec (.sw rt rs v) s = .next t ∧
      StoreStep s t (s.effectiveAddress .sw rs v) (s.reg rt)) ∧
    (s.params.addrValid (s.effectiveAddress .sw rs v) = false →
      exec (.sw rt rs v) s = .fault (.memoryFault (s.effectiveAddress .sw rs v) s.pc) ∧
      ∀ p, s.Executing → s.fetch = some p → p.instr = .sw rt rs v →
        step s = .next (s.recordFault (.memoryFault (s.effectiveAddress .sw rs v) s.pc)))

/-- The six branches (R178, R180 to R185): taken under the signed predicate, relative to the branch's
own step; a branch writes nothing. -/
def Obligations.BranchResults : Prop :=
  ∀ (s : State) (rs : RegIdx) (d : BitVec 8),
    (IsWordOf (patternB 20 rs d) (.beqz rs d) ∧ ∃ t, exec (.beqz rs d) s = .next t ∧
      PcStep s t (if (s.reg rs).toInt = 0 then s.pc + sext8 d else s.pc + 1)) ∧
    (IsWordOf (patternB 21 rs d) (.bnez rs d) ∧ ∃ t, exec (.bnez rs d) s = .next t ∧
      PcStep s t (if (s.reg rs).toInt ≠ 0 then s.pc + sext8 d else s.pc + 1)) ∧
    (IsWordOf (patternB 22 rs d) (.bltz rs d) ∧ ∃ t, exec (.bltz rs d) s = .next t ∧
      PcStep s t (if (s.reg rs).toInt < 0 then s.pc + sext8 d else s.pc + 1)) ∧
    (IsWordOf (patternB 23 rs d) (.bgez rs d) ∧ ∃ t, exec (.bgez rs d) s = .next t ∧
      PcStep s t (if 0 ≤ (s.reg rs).toInt then s.pc + sext8 d else s.pc + 1)) ∧
    (IsWordOf (patternB 24 rs d) (.bgtz rs d) ∧ ∃ t, exec (.bgtz rs d) s = .next t ∧
      PcStep s t (if 0 < (s.reg rs).toInt then s.pc + sext8 d else s.pc + 1)) ∧
    (IsWordOf (patternB 25 rs d) (.blez rs d) ∧ ∃ t, exec (.blez rs d) s = .next t ∧
      PcStep s t (if (s.reg rs).toInt ≤ 0 then s.pc + sext8 d else s.pc + 1))

/-- JR and JALR (R186, R187): an absolute target from the old `x[rs]`, also where that is the link
register. -/
def Obligations.RegisterJumpResults : Prop :=
  ∀ (s : State) (rs : RegIdx) (d : BitVec 8),
    (IsWordOf (patternB 26 rs d) (.jr rs d) ∧ ∃ t, exec (.jr rs d) s = .next t ∧
      PcStep s t (s.reg rs + sext8 d)) ∧
    (IsWordOf (patternB 27 rs d) (.jalr rs d) ∧ ∃ t, exec (.jalr rs d) s = .next t ∧
      RegisterStep s t 7 (s.pc + 1) (s.reg rs + sext8 d))

/-- J and JAL (R188, R189). -/
def Obligations.RelativeJumpResults : Prop :=
  ∀ (s : State) (d : BitVec 11),
    (IsWordOf (patternJ 28 d) (.j d) ∧ ∃ t, exec (.j d) s = .next t ∧ PcStep s t (s.pc + sext11 d)) ∧
    (IsWordOf (patternJ 29 d) (.jal d) ∧ ∃ t, exec (.jal d) s = .next t ∧
      RegisterStep s t 7 (s.pc + 1) (s.pc + sext11 d))

/-- SET and SSET (R200, R201), the accumulator's value as a number modulo 2^32. -/
def Obligations.WideImmediateResults : Prop :=
  ∀ (s : State) (v : BitVec 11),
    (IsWordOf (patternJ 30 v) (.set v) ∧ ∃ t, exec (.set v) s = .next t ∧
      RegisterStep s t 0 (BitVec.ofNat 32 v.toNat) (s.pc + 1)) ∧
    (IsWordOf (patternJ 31 v) (.sset v) ∧ ∃ t, exec (.sset v) s = .next t ∧
      RegisterStep s t 0 (BitVec.ofNat 32 ((s.reg 0).toNat * 2 ^ 11 + v.toNat)) (s.pc + 1) ∧
      RegisterStep s t 0 ((s.reg 0 <<< 11) ||| zext11 v) (s.pc + 1))

/-- R202: `set h; sset l` leaves `h * 2048 + l` in register 0 alone, which covers every 22-bit value; an
ordinary instruction moves it; a third SSET loses the bits above 31; no other instruction writes
register 0 without naming it. -/
def Obligations.TwoStepConstant : Prop :=
  (∀ (s : State) (h l : BitVec 11), ∃ t u, exec (.set h) s = .next t ∧ exec (.sset l) t = .next u ∧
    (u.reg 0).toNat = h.toNat * 2048 + l.toNat ∧ (∀ r, r ≠ 0 → u.reg r = s.reg r) ∧
    (∀ n : RegIdx, ∃ v, exec (.addi n 0 0) u = .next v ∧ v.reg n = u.reg 0) ∧
    (∀ n m : RegIdx, u.reg m = 0 → ∃ v, exec (.add n 0 m) u = .next v ∧ v.reg n = u.reg 0) ∧
    (∀ k : BitVec 11, ∃ v, exec (.sset k) u = .next v ∧
      (v.reg 0).toNat = ((h.toNat * 2048 + l.toNat) * 2048 + k.toNat) % 2 ^ 32)) ∧
  (∀ n : Nat, n < 2 ^ 22 → ∃ h l : BitVec 11, n = h.toNat * 2048 + l.toNat) ∧
  (∀ (i : Instr) (s t : State), exec i s = .next t → t.reg 0 ≠ s.reg 0 →
    namedDest i = some 0 ∨ i.mnemonic = .set ∨ i.mnemonic = .sset)

/-- A call and its return (R190): after JAL or JALR, `jr $7, 0` goes to the step after the call. -/
def Obligations.CallsReturnToTheNextStep : Prop :=
  ∀ (s : State) (i : Instr), (∃ d, i = .jal d) ∨ (∃ rs d, i = .jalr rs d) →
    ∃ t, exec i s = .next t ∧ t.reg 7 = s.pc + 1 ∧
      ∀ u : State, u.reg 7 = t.reg 7 → ∃ v, exec (.jr 7 0) u = .next v ∧ PcStep u v (s.pc + 1)

/-- The execution unit at its ports (R32), written as one datapath, does what the instruction meanings
do, on every decoded record and state.  It compares states, so it rests on no port's value beside `fault`
(notes/assumptions/17.md). -/
def Obligations.DatapathAgreesWithTheInstructions : Prop :=
  ∀ (m : Mnemonic) (f : Fields) (s : State), exec (m.build f) s = s.executeAtPorts m f

/-! ### Assembling and loading -/

/-- R111: the loader decodes every line at its own index, or fails with the first bad line's error and
produces no program.  The hex value of a token is that of its digits, of either letter case, each digit
weighing 16 times the next. -/
def Obligations.LoaderDecodesEveryLineInOrder : Prop :=
  (∀ (om : OpMap) (ts : List Text) (prog : List Loaded), loadProgram om ts = .ok prog ↔
    prog.length = ts.length ∧
      ∀ k t p, ts[k]? = some t → prog[k]? = some p → loadLine om k t = .ok p) ∧
  (∀ (om : OpMap) (ts : List Text) (f : Failure), loadProgram om ts = .error f ↔
    ∃ k t, ts[k]? = some t ∧ loadLine om k t = .error f ∧
      ∀ j u, j < k → ts[j]? = some u → ∃ p, loadLine om j u = .ok p) ∧
  (∀ (om : OpMap) (k : Nat) (t : Text),
    (t.length ≠ 8 ∨ (∃ c ∈ t, hexDigitValue c = none) → loadLine om k t = .error (.syntaxException k)) ∧
    (∀ v, t.length = 8 → hexValue t = some v → 0xFFFF < v → loadLine om k t = .error (.syntaxException k)) ∧
    (∀ v, t.length = 8 → hexValue t = some v → v ≤ 0xFFFF →
      loadLine om k t = decodeRecord om (BitVec.ofNat 16 v) k k)) ∧
  (∀ c : Char, hexDigitValue c ≠ none ↔ c ∈ "0123456789ABCDEFabcdef".toList) ∧
  (∀ (c : Char) (n : Nat), hexDigitValue c = some n ↔
    "0123456789ABCDEF".toList[n]? = some c ∨ "0123456789abcdef".toList[n]? = some c) ∧
  (∀ (c : Char) (d : Nat), hexDigitValue c = some d → hexValue [c] = some d) ∧
  (∀ (t : Text) (c : Char) (n d : Nat), hexValue t = some n → hexDigitValue c = some d →
    hexValue (t ++ [c]) = some (16 * n + d))

/-- R241: an illegal or malformed word anywhere in the stream prevents the run, with the load's failure
unless a seed is bad as well (which of the two is reported then, notes/assumptions/21.md, no clause says); a
stream that loads, with good seeds, starts a run at step 0 with the program it decodes to, which no step
changes. -/
def Obligations.BadStreamsNeverStart : Prop :=
  (∀ (om : OpMap) (p : Params) (ts : List Text) (initR : Vector Word 8) (seeds : List (Word × Word)) (d k : Nat)
    (t : Text), ts[k]? = some t → (∀ q, loadLine om k t ≠ .ok q) →
    ∃ f, loadProgram om ts = .error f ∧ (∀ s, launch om p ts initR seeds d ≠ .ok s) ∧
      (∀ m, preseed p seeds [] = .ok m → launch om p ts initR seeds d = .error (.build f))) ∧
  (∀ (om : OpMap) (p : Params) (ts : List Text) (initR : Vector Word 8) (seeds : List (Word × Word)) (d : Nat)
    (prog : List Loaded) (m : Memory), loadProgram om ts = .ok prog → preseed p seeds [] = .ok m →
    ∃ s, launch om p ts initR seeds d = .ok s) ∧
  (∀ (om : OpMap) (p : Params) (ts : List Text) (initR : Vector Word 8) (seeds : List (Word × Word)) (d : Nat)
    (s : State), launch om p ts initR seeds d = .ok s →
    loadProgram om ts = .ok s.program ∧ s.pc = 0 ∧ s.status = .running ∧ s.regs = initR ∧ s.params = p ∧
      s.cancel = false ∧ preseed p seeds [] = .ok s.mem ∧ ∀ n, (runSteps n s).program = s.program)

/-- The tokens of the two hex streams read back as their word (R108, R109, R110). -/
def Obligations.HexTokensReadBack : Prop :=
  ∀ w : InstrWord, (hexFull w).length = 8 ∧ (hexFull w).take 4 = ['0', '0', '0', '0'] ∧
    (hexFull w).drop 4 = hexCompact w ∧ (hexCompact w).length = 4 ∧
    hexValue (hexFull w) = some w.toNat ∧ hexValue (hexCompact w) = some w.toNat ∧
    ∀ c ∈ hexFull w, ¬ (97 ≤ c.toNat ∧ c.toNat ≤ 122)

/-- What the assembler emits, the loader loads: every word of the source, in order, each decoding to the
instruction whose word it is (R92, R108, R111). -/
def Obligations.AssembledStreamsLoad : Prop :=
  ∀ (om : OpMap) (sg : Imm5Signed) (src hex : List Text), om.Consistent → assemble om sg src = .ok hex →
    ∃ ws prog, assembleWords om sg src = .ok ws ∧ hex = ws.map hexFull ∧ loadProgram om hex = .ok prog ∧
      prog.length = ws.length ∧
      ∀ (k : Nat) (p : Loaded), prog[k]? = some p →
        p.lineNo = k ∧ p.stepNo = k ∧ ws[k]? = some (encode om p.instr)

/-- Pass 1 numbers the instructions from 0 in order, a blank line or a bare label using no step: each
line's instruction is one record with that line's number from 1 (R103) and, as its step number, how many
instructions stand before it.  A label names the step of the next instruction after it, the number of
instructions before its line; with none after it that is the length of the program (R102). -/
def Obligations.StepNumbersCountInstructions : Prop :=
  ∀ (sg : Imm5Signed) (src : List Text) (p : Pass1), pass1 sg src = .ok p →
    (∀ (k : Nat) (r : Record), p.records[k]? = some r → r.stepNo = k) ∧
    p.records.length = src.countP hasInstr ∧
    (∀ (k : Nat) (t : Text), src[k]? = some t → hasInstr t = true →
      ∃ r, p.records[instrsBefore src k]? = some r ∧ r.lineNo = k + 1 ∧
        parseInstr sg (k + 1) (instrsBefore src k) (lineBody t) = .ok r) ∧
    (∀ (k : Nat) (t n : Text), src[k]? = some t → lineLabel t = some n →
      p.labels.find n = some (instrsBefore src k)) ∧
    (∀ (n : Text) (v : Nat), p.labels.find n = some v → v ≤ p.records.length ∧
      ∃ k t, src[k]? = some t ∧ lineLabel t = some n ∧ v = instrsBefore src k)

/-- A label has one definition: pass 1 that succeeds has each name once, and pass 1 of a source that
defines a name a second time, no line before giving a failure, is a `SyntaxException` at the line of the
second definition (R104, decision D22).  That this is so too where the rest of that line is malformed is the
model's order of checks (notes/assumptions/11.md, DESIGN CHOICE). -/
def Obligations.LabelsAreDefinedOnce : Prop :=
  (∀ (sg : Imm5Signed) (src : List Text) (p : Pass1), pass1 sg src = .ok p → (p.labels.map Prod.fst).Nodup) ∧
  (∀ (ls : Labels) (line st : Nat) (n : Text) (v : Nat), ls.find n = some v →
    ls.define line st (some n) = .error (.syntaxException line)) ∧
  (∀ (sg : Imm5Signed) (src : List Text) (p : Pass1) (j k : Nat) (t u n : Text), j < k → src[j]? = some t →
    src[k]? = some u → lineLabel t = some n → lineLabel u = some n → pass1 sg (src.take k) = .ok p →
    pass1 sg src = .error (.syntaxException (k + 1)))

/-- R106: a label becomes its step less the record's own, the record otherwise as it was; an absent label
and an offset outside the field are errors; and at run time the branch or jump goes to the label's step. -/
def Obligations.LabelsResolveToTheirStep : Prop :=
  ∀ (sg : Imm5Signed) (ls : Labels) (r : Record) (name : Text), r.jumpto = some name →
    r.mn.takesLabel = true →
    (ls.find name = none → resolve sg ls r = .error (.labelNotFound name r.lineNo)) ∧
    (∀ target : Nat, ls.find name = some target →
      let off : Int := target - r.stepNo
      let lo : Int := if r.mn.format = .b then -128 else -1024
      let hi : Int := if r.mn.format = .b then 127 else 1023
      (off < lo ∨ hi < off → resolve sg ls r = .error (.rangeError r.lineNo)) ∧
      (lo ≤ off ∧ off ≤ hi → ∃ r', resolve sg ls r = .ok r' ∧ r' = { r with imm := off, jumpto := none } ∧
        ∀ (s : State) (n : Word), s.pc = BitVec.ofNat 32 r.stepNo → explicitTarget r'.toInstr s = some n →
          n = BitVec.ofNat 32 target))

/-- A wrong number of operands is an `ArityMismatch` naming both counts (R100).  This covers operand lists
that hold a malformed operand too: that the count is checked before the operands is the model's choice
(notes/assumptions/11.md, DESIGN CHOICE). -/
def Obligations.WrongOperandCountsAreNamed : Prop :=
  ∀ (sg : Imm5Signed) (m : Mnemonic) (line st : Nat) (ops : List Text),
    ops.length ≠ (operandForm m).arity →
    parseOperands sg m line st ops = .error (.arityMismatch line (operandForm m).arity ops.length)

/-- What the renderer prints, the parser reads as the same record, resolved or with its label (R99,
R112). -/
def Obligations.RenderedInstructionsParseBack : Prop :=
  ∀ (sg : Imm5Signed) (r : Record),
    (r.wf sg = true ∨ (r.labelWf = true ∧ ∀ n, r.jumpto = some n → isIdent n = true)) →
    parseInstr sg r.lineNo r.stepNo (render r) = .ok r

/-- What the host gets back (R224): after the run its status, final PC and all eight registers, and
memory by a call; nothing while it runs, the model's reading for memory (notes/assumptions/15.md). -/
def Obligations.EndedRunsAreReported : Prop :=
  ∀ s : State,
    (s.Ended → ∃ rep, s.report = some rep ∧ rep.status = s.status ∧ rep.pc = s.pc ∧ rep.regs.length = 8 ∧
      (∀ r : RegIdx, rep.regs[r.toNat]? = some (r.toNat, s.reg r)) ∧
      ∀ a, s.params.addrValid a = true → s.hostReadMem a = some (.ok (s.mem.read a.toNat))) ∧
    (¬ s.Ended → s.report = none ∧ ∀ a, s.hostReadMem a = none)
end

