-- ==== Sys2Proof/Laws/Codec.lean ====
section
/-! SUPPORT. The fields of an encoded word, a word rebuilt from its fields, and the lookup of the opcode map
(spec/30_encoding.md R71 to R76, R88, R91). -/

namespace Sys2Proof

/-- A placed field, bit by bit. -/
theorem placeField_getLsbD {k : Nat} (v : BitVec k) (n i : Nat) :
    (placeField v n).getLsbD i = (decide (i < 16) && decide (n ≤ i) && v.getLsbD (i - n)) := by
  by_cases h1 : i < 16 <;> by_cases h2 : n ≤ i <;> simp [placeField, h1, h2]

@[simp] theorem opcodeOf_wordR (om : OpMap) (m : Mnemonic) (rs rt rd : RegIdx) :
    opcodeOf (wordR om m rs rt rd) = om.opcode m := by
  ext i hi
  rw [← BitVec.getLsbD_eq_getElem, ← BitVec.getLsbD_eq_getElem]
  simp only [wordR, opcodeOf, BitVec.getLsbD_extractLsb', BitVec.getLsbD_or, placeField_getLsbD]
  interval_cases i <;> simp [BitVec.getLsbD_of_ge]

@[simp] theorem rs_wordR (om : OpMap) (m : Mnemonic) (rs rt rd : RegIdx) :
    (Fields.ofWord (wordR om m rs rt rd)).rs = rs := by
  ext i hi
  rw [← BitVec.getLsbD_eq_getElem, ← BitVec.getLsbD_eq_getElem]
  simp only [wordR, Fields.ofWord, BitVec.getLsbD_extractLsb', BitVec.getLsbD_or, placeField_getLsbD]
  interval_cases i <;> simp [BitVec.getLsbD_of_ge]

@[simp] theorem rt_wordR (om : OpMap) (m : Mnemonic) (rs rt rd : RegIdx) :
    (Fields.ofWord (wordR om m rs rt rd)).rt = rt := by
  ext i hi
  rw [← BitVec.getLsbD_eq_getElem, ← BitVec.getLsbD_eq_getElem]
  simp only [wordR, Fields.ofWord, BitVec.getLsbD_extractLsb', BitVec.getLsbD_or, placeField_getLsbD]
  interval_cases i <;> simp [BitVec.getLsbD_of_ge]

@[simp] theorem rd_wordR (om : OpMap) (m : Mnemonic) (rs rt rd : RegIdx) :
    (Fields.ofWord (wordR om m rs rt rd)).rd = rd := by
  ext i hi
  rw [← BitVec.getLsbD_eq_getElem, ← BitVec.getLsbD_eq_getElem]
  simp only [wordR, Fields.ofWord, BitVec.getLsbD_extractLsb', BitVec.getLsbD_or, placeField_getLsbD]
  interval_cases i <;> simp [BitVec.getLsbD_of_ge]

@[simp] theorem func_wordR (om : OpMap) (m : Mnemonic) (rs rt rd : RegIdx) :
    (Fields.ofWord (wordR om m rs rt rd)).func = om.func m := by
  ext i hi
  rw [← BitVec.getLsbD_eq_getElem, ← BitVec.getLsbD_eq_getElem]
  simp only [wordR, Fields.ofWord, BitVec.getLsbD_extractLsb', BitVec.getLsbD_or, placeField_getLsbD]
  interval_cases i <;> simp

@[simp] theorem opcodeOf_wordI (om : OpMap) (m : Mnemonic) (rs rt : RegIdx) (imm5 : BitVec 5) :
    opcodeOf (wordI om m rs rt imm5) = om.opcode m := by
  ext i hi
  rw [← BitVec.getLsbD_eq_getElem, ← BitVec.getLsbD_eq_getElem]
  simp only [wordI, opcodeOf, BitVec.getLsbD_extractLsb', BitVec.getLsbD_or, placeField_getLsbD]
  interval_cases i <;> simp [BitVec.getLsbD_of_ge]

@[simp] theorem rs_wordI (om : OpMap) (m : Mnemonic) (rs rt : RegIdx) (imm5 : BitVec 5) :
    (Fields.ofWord (wordI om m rs rt imm5)).rs = rs := by
  ext i hi
  rw [← BitVec.getLsbD_eq_getElem, ← BitVec.getLsbD_eq_getElem]
  simp only [wordI, Fields.ofWord, BitVec.getLsbD_extractLsb', BitVec.getLsbD_or, placeField_getLsbD]
  interval_cases i <;> simp [BitVec.getLsbD_of_ge]

@[simp] theorem rt_wordI (om : OpMap) (m : Mnemonic) (rs rt : RegIdx) (imm5 : BitVec 5) :
    (Fields.ofWord (wordI om m rs rt imm5)).rt = rt := by
  ext i hi
  rw [← BitVec.getLsbD_eq_getElem, ← BitVec.getLsbD_eq_getElem]
  simp only [wordI, Fields.ofWord, BitVec.getLsbD_extractLsb', BitVec.getLsbD_or, placeField_getLsbD]
  interval_cases i <;> simp [BitVec.getLsbD_of_ge]

@[simp] theorem imm5_wordI (om : OpMap) (m : Mnemonic) (rs rt : RegIdx) (imm5 : BitVec 5) :
    (Fields.ofWord (wordI om m rs rt imm5)).imm5 = imm5 := by
  ext i hi
  rw [← BitVec.getLsbD_eq_getElem, ← BitVec.getLsbD_eq_getElem]
  simp only [wordI, Fields.ofWord, BitVec.getLsbD_extractLsb', BitVec.getLsbD_or, placeField_getLsbD]
  interval_cases i <;> simp

@[simp] theorem opcodeOf_wordB (om : OpMap) (m : Mnemonic) (rs : RegIdx) (imm8 : BitVec 8) :
    opcodeOf (wordB om m rs imm8) = om.opcode m := by
  ext i hi
  rw [← BitVec.getLsbD_eq_getElem, ← BitVec.getLsbD_eq_getElem]
  simp only [wordB, opcodeOf, BitVec.getLsbD_extractLsb', BitVec.getLsbD_or, placeField_getLsbD]
  interval_cases i <;> simp [BitVec.getLsbD_of_ge]

@[simp] theorem rs_wordB (om : OpMap) (m : Mnemonic) (rs : RegIdx) (imm8 : BitVec 8) :
    (Fields.ofWord (wordB om m rs imm8)).rs = rs := by
  ext i hi
  rw [← BitVec.getLsbD_eq_getElem, ← BitVec.getLsbD_eq_getElem]
  simp only [wordB, Fields.ofWord, BitVec.getLsbD_extractLsb', BitVec.getLsbD_or, placeField_getLsbD]
  interval_cases i <;> simp [BitVec.getLsbD_of_ge]

@[simp] theorem imm8_wordB (om : OpMap) (m : Mnemonic) (rs : RegIdx) (imm8 : BitVec 8) :
    (Fields.ofWord (wordB om m rs imm8)).imm8 = imm8 := by
  ext i hi
  rw [← BitVec.getLsbD_eq_getElem, ← BitVec.getLsbD_eq_getElem]
  simp only [wordB, Fields.ofWord, BitVec.getLsbD_extractLsb', BitVec.getLsbD_or, placeField_getLsbD]
  interval_cases i <;> simp

@[simp] theorem opcodeOf_wordJ (om : OpMap) (m : Mnemonic) (imm11 : BitVec 11) :
    opcodeOf (wordJ om m imm11) = om.opcode m := by
  ext i hi
  rw [← BitVec.getLsbD_eq_getElem, ← BitVec.getLsbD_eq_getElem]
  simp only [wordJ, opcodeOf, BitVec.getLsbD_extractLsb', BitVec.getLsbD_or, placeField_getLsbD]
  interval_cases i <;> simp [BitVec.getLsbD_of_ge]

@[simp] theorem imm11_wordJ (om : OpMap) (m : Mnemonic) (imm11 : BitVec 11) :
    (Fields.ofWord (wordJ om m imm11)).imm11 = imm11 := by
  ext i hi
  rw [← BitVec.getLsbD_eq_getElem, ← BitVec.getLsbD_eq_getElem]
  simp only [wordJ, Fields.ofWord, BitVec.getLsbD_extractLsb', BitVec.getLsbD_or, placeField_getLsbD]
  interval_cases i <;> simp

/-- A word is its opcode and its R-format fields: no bit is left over (R74). -/
theorem wordR_fields (w : InstrWord) :
    placeField (opcodeOf w) 11 ||| placeField (Fields.ofWord w).rs 8 ||| placeField (Fields.ofWord w).rt 5 ||| placeField (Fields.ofWord w).rd 2 ||| placeField (Fields.ofWord w).func 0 = w := by
  ext i hi
  rw [← BitVec.getLsbD_eq_getElem]
  simp only [opcodeOf, Fields.ofWord, BitVec.getLsbD_extractLsb', BitVec.getLsbD_or, placeField_getLsbD]
  interval_cases i <;> simp

/-- A word is its opcode and its I-format fields: no bit is left over (R74). -/
theorem wordI_fields (w : InstrWord) :
    placeField (opcodeOf w) 11 ||| placeField (Fields.ofWord w).rs 8 ||| placeField (Fields.ofWord w).rt 5 ||| placeField (Fields.ofWord w).imm5 0 = w := by
  ext i hi
  rw [← BitVec.getLsbD_eq_getElem]
  simp only [opcodeOf, Fields.ofWord, BitVec.getLsbD_extractLsb', BitVec.getLsbD_or, placeField_getLsbD]
  interval_cases i <;> simp

/-- A word is its opcode and its B-format fields: no bit is left over (R74). -/
theorem wordB_fields (w : InstrWord) :
    placeField (opcodeOf w) 11 ||| placeField (Fields.ofWord w).rs 8 ||| placeField (Fields.ofWord w).imm8 0 = w := by
  ext i hi
  rw [← BitVec.getLsbD_eq_getElem]
  simp only [opcodeOf, Fields.ofWord, BitVec.getLsbD_extractLsb', BitVec.getLsbD_or, placeField_getLsbD]
  interval_cases i <;> simp

/-- A word is its opcode and its J-format fields: no bit is left over (R74). -/
theorem wordJ_fields (w : InstrWord) :
    placeField (opcodeOf w) 11 ||| placeField (Fields.ofWord w).imm11 0 = w := by
  ext i hi
  rw [← BitVec.getLsbD_eq_getElem]
  simp only [opcodeOf, Fields.ofWord, BitVec.getLsbD_extractLsb', BitVec.getLsbD_or, placeField_getLsbD]
  interval_cases i <;> simp

/-- The patterns of R78 are the words of the reference map's numbers. -/
theorem patternR_eq {om : OpMap} {m : Mnemonic} {op : BitVec 5} {fn : BitVec 2} (ho : om.opcode m = op)
    (hf : om.func m = fn) (rs rt rd : RegIdx) : Machine.patternR op rs rt rd fn = wordR om m rs rt rd := by
  subst ho hf
  ext i hi
  rw [← BitVec.getLsbD_eq_getElem, ← BitVec.getLsbD_eq_getElem]
  simp only [Machine.patternR, wordR, BitVec.getLsbD_append, BitVec.getLsbD_or, placeField_getLsbD]
  interval_cases i <;> simp [BitVec.getLsbD_of_ge]

theorem patternI_eq {om : OpMap} {m : Mnemonic} {op : BitVec 5} (ho : om.opcode m = op)
    (rs rt : RegIdx) (imm5 : BitVec 5) : Machine.patternI op rs rt imm5 = wordI om m rs rt imm5 := by
  subst ho
  ext i hi
  rw [← BitVec.getLsbD_eq_getElem, ← BitVec.getLsbD_eq_getElem]
  simp only [Machine.patternI, wordI, BitVec.getLsbD_append, BitVec.getLsbD_or, placeField_getLsbD]
  interval_cases i <;> simp [BitVec.getLsbD_of_ge]

theorem patternB_eq {om : OpMap} {m : Mnemonic} {op : BitVec 5} (ho : om.opcode m = op)
    (rs : RegIdx) (imm8 : BitVec 8) : Machine.patternB op rs imm8 = wordB om m rs imm8 := by
  subst ho
  ext i hi
  rw [← BitVec.getLsbD_eq_getElem, ← BitVec.getLsbD_eq_getElem]
  simp only [Machine.patternB, wordB, BitVec.getLsbD_append, BitVec.getLsbD_or, placeField_getLsbD]
  interval_cases i <;> simp [BitVec.getLsbD_of_ge]

theorem patternJ_eq {om : OpMap} {m : Mnemonic} {op : BitVec 5} (ho : om.opcode m = op)
    (imm11 : BitVec 11) : Machine.patternJ op imm11 = wordJ om m imm11 := by
  subst ho
  ext i hi
  rw [← BitVec.getLsbD_eq_getElem, ← BitVec.getLsbD_eq_getElem]
  simp only [Machine.patternJ, wordJ, BitVec.getLsbD_append, BitVec.getLsbD_or, placeField_getLsbD]
  interval_cases i <;> simp [BitVec.getLsbD_of_ge]

/-- Every mnemonic is listed. -/
theorem Mnemonic.mem_all (m : Mnemonic) : m ∈ Mnemonic.all := by cases m <;> decide

/-- What the lookup finds has the format and the key asked for. -/
theorem OpMap.find_spec {om : OpMap} {fm : Format} {op : BitVec 5} {fn : BitVec 2} {m : Mnemonic}
    (h : om.find fm op fn = some m) : m.format = fm ∧ om.opcode m = op ∧ (fm = .r → om.func m = fn) := by
  have := List.find?_some h
  simp only [Bool.and_eq_true, Bool.or_eq_true, decide_eq_true_eq] at this
  exact ⟨this.1.1, this.1.2, fun e => this.2.resolve_left (fun ne => ne e)⟩

/-- Under a consistent map the lookup finds the mnemonic whose format and key it is given. -/
theorem OpMap.find_eq {om : OpMap} (hom : om.Consistent) {m : Mnemonic} {fm : Format} {op : BitVec 5}
    {fn : BitVec 2} (h1 : m.format = fm) (h2 : om.opcode m = op) (h3 : fm = .r → om.func m = fn) :
    om.find fm op fn = some m := by
  subst h1 h2
  cases h : om.find m.format (om.opcode m) fn with
  | none =>
    have := List.find?_eq_none.mp h m m.mem_all
    simp only [decide_true, Bool.true_and, Bool.or_eq_true, decide_eq_true_eq, not_or] at this
    exact absurd (h3 (not_not.mp this.1)) this.2
  | some n =>
    obtain ⟨h1, h2, hn⟩ := OpMap.find_spec h
    have : n = m := hom.2 n m ⟨h2, fun e => (hn (h1 ▸ e)).trans (h3 (h1 ▸ e)).symm⟩
    rw [this]

/-- The reference map is consistent with R75 to R77. -/
theorem OpMap.reference_consistent : OpMap.reference.Consistent := by
  refine ⟨fun m => by cases m <;> rfl, fun m n h => ?_⟩
  obtain ⟨h1, h2⟩ := h
  cases m <;> cases n <;> first | rfl | (exfalso; revert h1 h2; decide)

/-- The lookup fails only where no mnemonic has the format and key. -/
theorem OpMap.find_none {om : OpMap} {fm : Format} {op : BitVec 5} {fn : BitVec 2}
    (h : om.find fm op fn = none) (m : Mnemonic) (h1 : m.format = fm) (h2 : om.opcode m = op) :
    ¬(fm = .r → om.func m = fn) := by
  have := List.find?_eq_none.mp h m m.mem_all
  simp only [h1, h2, decide_true, Bool.true_and, Bool.or_eq_true, decide_eq_true_eq, not_or] at this
  exact fun hf => this.2 (hf (not_not.mp this.1))

end Sys2Proof
end

