-- ==== Sys2Proof/Laws/State.lean ====
section
/-! SUPPORT. One lemma per field per named update of a state, so that no proof unfolds a record update. -/

namespace Sys2Proof.Machine

@[simp] theorem State.recordFault_params (s : State) (e : Fault) : (s.recordFault e).params = s.params := rfl
@[simp] theorem State.recordFault_program (s : State) (e : Fault) : (s.recordFault e).program = s.program := rfl
@[simp] theorem State.recordFault_pc (s : State) (e : Fault) : (s.recordFault e).pc = s.pc := rfl
@[simp] theorem State.recordFault_regs (s : State) (e : Fault) : (s.recordFault e).regs = s.regs := rfl
@[simp] theorem State.recordFault_mem (s : State) (e : Fault) : (s.recordFault e).mem = s.mem := rfl
@[simp] theorem State.recordFault_status (s : State) (e : Fault) : (s.recordFault e).status = .faulted e := rfl
@[simp] theorem State.recordFault_cancel (s : State) (e : Fault) : (s.recordFault e).cancel = s.cancel := rfl
@[simp] theorem State.recordFault_kill (s : State) (e : Fault) : (s.recordFault e).kill = s.kill := rfl
@[simp] theorem State.recordFault_draws (s : State) (e : Fault) : (s.recordFault e).draws = s.draws := rfl

@[simp] theorem State.halt_params (s : State) : (s.halt).params = s.params := rfl
@[simp] theorem State.halt_program (s : State) : (s.halt).program = s.program := rfl
@[simp] theorem State.halt_pc (s : State) : (s.halt).pc = s.pc := rfl
@[simp] theorem State.halt_regs (s : State) : (s.halt).regs = s.regs := rfl
@[simp] theorem State.halt_mem (s : State) : (s.halt).mem = s.mem := rfl
@[simp] theorem State.halt_status (s : State) : (s.halt).status = .halted := rfl
@[simp] theorem State.halt_cancel (s : State) : (s.halt).cancel = s.cancel := rfl
@[simp] theorem State.halt_kill (s : State) : (s.halt).kill = s.kill := rfl
@[simp] theorem State.halt_draws (s : State) : (s.halt).draws = s.draws := rfl

@[simp] theorem State.cancelRun_params (s : State) : (s.cancelRun).params = s.params := rfl
@[simp] theorem State.cancelRun_program (s : State) : (s.cancelRun).program = s.program := rfl
@[simp] theorem State.cancelRun_pc (s : State) : (s.cancelRun).pc = s.pc := rfl
@[simp] theorem State.cancelRun_regs (s : State) : (s.cancelRun).regs = s.regs := rfl
@[simp] theorem State.cancelRun_mem (s : State) : (s.cancelRun).mem = s.mem := rfl
@[simp] theorem State.cancelRun_status (s : State) : (s.cancelRun).status = .cancelled := rfl
@[simp] theorem State.cancelRun_cancel (s : State) : (s.cancelRun).cancel = s.cancel := rfl
@[simp] theorem State.cancelRun_kill (s : State) : (s.cancelRun).kill = s.kill := rfl
@[simp] theorem State.cancelRun_draws (s : State) : (s.cancelRun).draws = s.draws := rfl

@[simp] theorem State.killRun_params (s : State) : (s.killRun).params = s.params := rfl
@[simp] theorem State.killRun_program (s : State) : (s.killRun).program = s.program := rfl
@[simp] theorem State.killRun_pc (s : State) : (s.killRun).pc = Config.killedPc s.draws := rfl
@[simp] theorem State.killRun_regs (s : State) : (s.killRun).regs = Config.killedRegs s.draws := rfl
@[simp] theorem State.killRun_mem (s : State) : (s.killRun).mem = Memory.ofCells s.params (Config.killedMem s.draws) := rfl
@[simp] theorem State.killRun_status (s : State) : (s.killRun).status = .killed := rfl
@[simp] theorem State.killRun_cancel (s : State) : (s.killRun).cancel = s.cancel := rfl
@[simp] theorem State.killRun_kill (s : State) : (s.killRun).kill = s.kill := rfl
@[simp] theorem State.killRun_draws (s : State) : (s.killRun).draws = s.draws + 1 := rfl

@[simp] theorem State.requestCancel_params (s : State) : (s.requestCancel).params = s.params := rfl
@[simp] theorem State.requestCancel_program (s : State) : (s.requestCancel).program = s.program := rfl
@[simp] theorem State.requestCancel_pc (s : State) : (s.requestCancel).pc = s.pc := rfl
@[simp] theorem State.requestCancel_regs (s : State) : (s.requestCancel).regs = s.regs := rfl
@[simp] theorem State.requestCancel_mem (s : State) : (s.requestCancel).mem = s.mem := rfl
@[simp] theorem State.requestCancel_status (s : State) : (s.requestCancel).status = s.status := rfl
@[simp] theorem State.requestCancel_cancel (s : State) : (s.requestCancel).cancel = true := rfl
@[simp] theorem State.requestCancel_kill (s : State) : (s.requestCancel).kill = s.kill := rfl
@[simp] theorem State.requestCancel_draws (s : State) : (s.requestCancel).draws = s.draws := rfl

@[simp] theorem State.requestKill_params (s : State) : (s.requestKill).params = s.params := rfl
@[simp] theorem State.requestKill_program (s : State) : (s.requestKill).program = s.program := rfl
@[simp] theorem State.requestKill_pc (s : State) : (s.requestKill).pc = s.pc := rfl
@[simp] theorem State.requestKill_regs (s : State) : (s.requestKill).regs = s.regs := rfl
@[simp] theorem State.requestKill_mem (s : State) : (s.requestKill).mem = s.mem := rfl
@[simp] theorem State.requestKill_status (s : State) : (s.requestKill).status = s.status := rfl
@[simp] theorem State.requestKill_cancel (s : State) : (s.requestKill).cancel = s.cancel := rfl
@[simp] theorem State.requestKill_kill (s : State) : (s.requestKill).kill = true := rfl
@[simp] theorem State.requestKill_draws (s : State) : (s.requestKill).draws = s.draws := rfl

@[simp] theorem State.setReg_params (s : State) (r : RegIdx) (v : Word) : (s.setReg r v).params = s.params := rfl
@[simp] theorem State.setReg_program (s : State) (r : RegIdx) (v : Word) : (s.setReg r v).program = s.program := rfl
@[simp] theorem State.setReg_pc (s : State) (r : RegIdx) (v : Word) : (s.setReg r v).pc = s.pc := rfl
@[simp] theorem State.setReg_mem (s : State) (r : RegIdx) (v : Word) : (s.setReg r v).mem = s.mem := rfl
@[simp] theorem State.setReg_status (s : State) (r : RegIdx) (v : Word) : (s.setReg r v).status = s.status := rfl
@[simp] theorem State.setReg_cancel (s : State) (r : RegIdx) (v : Word) : (s.setReg r v).cancel = s.cancel := rfl
@[simp] theorem State.setReg_kill (s : State) (r : RegIdx) (v : Word) : (s.setReg r v).kill = s.kill := rfl
@[simp] theorem State.setReg_draws (s : State) (r : RegIdx) (v : Word) : (s.setReg r v).draws = s.draws := rfl

@[simp] theorem State.start_params (p : Params) (prog : List Loaded) (x : Vector Word 8) (m : Memory) (d : Nat) :
    (State.start p prog x m d).params = p := rfl
@[simp] theorem State.start_program (p : Params) (prog : List Loaded) (x : Vector Word 8) (m : Memory) (d : Nat) :
    (State.start p prog x m d).program = prog := rfl
@[simp] theorem State.start_pc (p : Params) (prog : List Loaded) (x : Vector Word 8) (m : Memory) (d : Nat) :
    (State.start p prog x m d).pc = 0 := rfl
@[simp] theorem State.start_regs (p : Params) (prog : List Loaded) (x : Vector Word 8) (m : Memory) (d : Nat) :
    (State.start p prog x m d).regs = x := rfl
@[simp] theorem State.start_mem (p : Params) (prog : List Loaded) (x : Vector Word 8) (m : Memory) (d : Nat) :
    (State.start p prog x m d).mem = m := rfl
@[simp] theorem State.start_status (p : Params) (prog : List Loaded) (x : Vector Word 8) (m : Memory) (d : Nat) :
    (State.start p prog x m d).status = .running := rfl
@[simp] theorem State.start_cancel (p : Params) (prog : List Loaded) (x : Vector Word 8) (m : Memory) (d : Nat) :
    (State.start p prog x m d).cancel = false := rfl
@[simp] theorem State.start_kill (p : Params) (prog : List Loaded) (x : Vector Word 8) (m : Memory) (d : Nat) :
    (State.start p prog x m d).kill = false := rfl
@[simp] theorem State.start_draws (p : Params) (prog : List Loaded) (x : Vector Word 8) (m : Memory) (d : Nat) :
    (State.start p prog x m d).draws = d := rfl

/-- The reset state is the start of a run of the empty program under the values the log names. -/
theorem State.reset_eq_start :
    State.reset = State.start (Params.default Params.resetMemWords) [] (Vector.replicate 8 0) [] 0 := rfl

end Sys2Proof.Machine
end

