-- ==== Sys2Proof/Laws/Memory.lean ====
section
/-! SUPPORT. Data memory: read after write, and that every operation keeps the canonical form. -/

namespace Sys2Proof.Machine

@[simp] theorem Memory.wf_nil : Memory.wf [] = true := rfl

/-- The canonical form, unfolded at its first cell. -/
theorem Memory.wfAbove_cons (lo : Option Nat) (k : Nat) (w : Word) (m : Memory) :
    Memory.wfAbove lo ((k, w) :: m) = true ↔
      (∀ l, lo = some l → l < k) ∧ k < 2 ^ 32 ∧ w ≠ Memory.unlisted ∧ Memory.wfAbove (some k) m = true := by
  cases lo <;> simp [Memory.wfAbove, and_assoc]

/-- A canonical list stays one above a smaller bound. -/
theorem Memory.wfAbove_mono {lo lo' : Option Nat} {m : Memory} (h : Memory.wfAbove lo m = true)
    (hl : ∀ l', lo' = some l' → ∃ l, lo = some l ∧ l' ≤ l) : Memory.wfAbove lo' m = true := by
  cases m with
  | nil => rfl
  | cons c m =>
    obtain ⟨k, w⟩ := c
    rw [Memory.wfAbove_cons] at h ⊢
    obtain ⟨h1, h2⟩ := h
    refine ⟨fun l' e => ?_, h2⟩
    obtain ⟨l, el, hle⟩ := hl l' e
    exact Nat.lt_of_le_of_lt hle (h1 l el)

/-- Below its bound a canonical list holds nothing. -/
theorem Memory.read_of_wfAbove {l : Nat} {m : Memory} (h : Memory.wfAbove (some l) m = true) {a : Nat}
    (ha : a ≤ l) : m.read a = Memory.unlisted := by
  induction m generalizing l with
  | nil => rfl
  | cons c m ih =>
    obtain ⟨k, w⟩ := c
    rw [Memory.wfAbove_cons] at h
    have hk := h.1 l rfl
    rw [Memory.read, if_neg (by omega)]
    exact ih h.2.2.2 (by omega)

/-- A write at another address leaves a word as it was. -/
theorem Memory.read_write_ne {m : Memory} {a b : Nat} (v : Word) (h : b ≠ a) :
    (m.write a v).read b = m.read b := by
  induction m with
  | nil => by_cases hv : v = Memory.unlisted <;> simp [Memory.write, Memory.read, hv, h]
  | cons c m ih =>
    obtain ⟨k, w⟩ := c
    unfold Memory.write
    split
    · split <;> simp [Memory.read, h]
    · split
      · subst a
        split <;> simp [Memory.read, h]
      · simp [Memory.read, ih]

/-- A read at the written address gives the written word. -/
theorem Memory.read_write_same_above {lo : Option Nat} {m : Memory} (hm : Memory.wfAbove lo m = true)
    (a : Nat) (v : Word) : (m.write a v).read a = v := by
  induction m generalizing lo with
  | nil => by_cases hv : v = Memory.unlisted <;> simp [Memory.write, Memory.read, hv]
  | cons c m ih =>
    obtain ⟨k, w⟩ := c
    have hm' := (Memory.wfAbove_cons lo k w m).mp hm
    unfold Memory.write
    split
    · rename_i hlt
      split
      · rename_i hv
        rw [Memory.read, if_neg (by omega), Memory.read_of_wfAbove hm'.2.2.2 (by omega), hv]
      · simp [Memory.read]
    · split
      · subst a
        split
        · rename_i hv
          rw [Memory.read_of_wfAbove hm'.2.2.2 (Nat.le_refl k), hv]
        · simp [Memory.read]
      · rename_i hne
        rw [Memory.read, if_neg hne]
        exact ih hm'.2.2.2

theorem Memory.read_write_same {m : Memory} (hm : m.wf = true) (a : Nat) (v : Word) :
    (m.write a v).read a = v :=
  Memory.read_write_same_above hm a v

/-- A write keeps the canonical form above its bound. -/
theorem Memory.wfAbove_write {lo : Option Nat} {m : Memory} (hm : Memory.wfAbove lo m = true) {a : Nat}
    (ha : a < 2 ^ 32) (hl : ∀ l, lo = some l → l < a) (v : Word) :
    Memory.wfAbove lo (m.write a v) = true := by
  induction m generalizing lo with
  | nil =>
    by_cases hv : v = Memory.unlisted
    · simp [Memory.write, hv, Memory.wfAbove]
    · rw [Memory.write, if_neg hv, Memory.wfAbove_cons]
      exact ⟨hl, ha, hv, rfl⟩
  | cons c m ih =>
    obtain ⟨k, w⟩ := c
    have hm' := (Memory.wfAbove_cons lo k w m).mp hm
    unfold Memory.write
    split
    · rename_i hlt
      split
      · exact hm
      · rename_i hv
        rw [Memory.wfAbove_cons, Memory.wfAbove_cons]
        exact ⟨hl, ha, hv, fun l e => by cases e; exact hlt, hm'.2⟩
    · split
      · subst a
        split
        · refine Memory.wfAbove_mono hm'.2.2.2 fun l e => ⟨k, rfl, ?_⟩
          exact Nat.le_of_lt (hl l e)
        · rename_i hv
          rw [Memory.wfAbove_cons]
          exact ⟨hl, ha, hv, hm'.2.2.2⟩
      · rename_i h1 h2
        rw [Memory.wfAbove_cons]
        refine ⟨hm'.1, hm'.2.1, hm'.2.2.1, ih hm'.2.2.2 fun l e => ?_⟩
        cases e
        omega

theorem Memory.wf_write {m : Memory} (hm : m.wf = true) {a : Nat} (ha : a < 2 ^ 32) (v : Word) :
    (m.write a v).wf = true :=
  Memory.wfAbove_write hm ha (fun _ e => by cases e) v

/-- A write lists no address but its own and those listed before. -/
theorem Memory.mem_write {m : Memory} {a : Nat} {v : Word} {c : Nat × Word} (h : c ∈ m.write a v) :
    c = (a, v) ∨ c ∈ m := by
  induction m with
  | nil =>
    by_cases hv : v = Memory.unlisted <;> simp [Memory.write, hv] at h
    exact Or.inl h
  | cons d m ih =>
    obtain ⟨k, w⟩ := d
    unfold Memory.write at h
    split at h
    · split at h
      · exact Or.inr h
      · simpa using h
    · split at h
      · split at h
        · exact Or.inr (List.mem_cons_of_mem _ h)
        · rcases List.mem_cons.mp h with e | e
          · exact Or.inl e
          · exact Or.inr (List.mem_cons_of_mem _ e)
      · rcases List.mem_cons.mp h with e | e
        · exact Or.inr (e ▸ List.mem_cons_self)
        · rcases ih e with e' | e'
          · exact Or.inl e'
          · exact Or.inr (List.mem_cons_of_mem _ e')

/-- A write at an address that exists keeps every listed address existing. -/
theorem Memory.within_write {m : Memory} {p : Params} (hm : m.within p = true) {a : Nat}
    (ha : p.addrValid (BitVec.ofNat 32 a) = true) (v : Word) : (m.write a v).within p = true := by
  simp only [Memory.within, List.all_eq_true] at hm ⊢
  intro c hc
  rcases Memory.mem_write hc with e | e
  · rw [e]; exact ha
  · exact hm c e

/-- The memory built from cells is canonical and lists only addresses that exist. -/
theorem Memory.ofCells_ok (p : Params) (cells : List (Nat × Word)) :
    (Memory.ofCells p cells).wf = true ∧ (Memory.ofCells p cells).within p = true := by
  unfold Memory.ofCells
  suffices h : ∀ m : Memory, m.wf = true ∧ m.within p = true →
      (cells.foldl (fun m c => if decide (c.1 < 2 ^ 32) && p.addrValid (BitVec.ofNat 32 c.1) then
        m.write c.1 c.2 else m) m).wf = true ∧
      (cells.foldl (fun m c => if decide (c.1 < 2 ^ 32) && p.addrValid (BitVec.ofNat 32 c.1) then
        m.write c.1 c.2 else m) m).within p = true from h [] ⟨rfl, rfl⟩
  induction cells with
  | nil => exact fun m h => h
  | cons c cs ih =>
    intro m hm
    rw [List.foldl_cons]
    apply ih
    split
    · rename_i h
      simp only [Bool.and_eq_true, decide_eq_true_eq] at h
      exact ⟨Memory.wf_write hm.1 h.1 c.2, Memory.within_write hm.2 h.2 c.2⟩
    · exact hm

/-- Pre-seeding keeps the form, and lists only addresses that exist. -/
theorem preseed_ok {p : Params} {cells : List (Word × Word)} {m m' : Memory} (h : preseed p cells m = .ok m')
    (hm : m.wf = true ∧ m.within p = true) : m'.wf = true ∧ m'.within p = true := by
  induction cells generalizing m with
  | nil => cases h; exact hm
  | cons c cs ih =>
    obtain ⟨a, v⟩ := c
    rw [preseed] at h
    split at h
    · rename_i ha
      exact ih h ⟨Memory.wf_write hm.1 a.isLt v, Memory.within_write hm.2 (by simpa using ha) v⟩
    · cases h

end Sys2Proof.Machine
end

