-- ==== Sys2Proof/Laws/Registers.lean ====
section
/-! SUPPORT. Reading a register after a write, and states told apart by their registers. -/

namespace Sys2Proof.Machine

@[simp] theorem State.reg_setReg_same (s : State) (r : RegIdx) (v : Word) : (s.setReg r v).reg r = v := by
  simp [State.reg, State.setReg]

@[simp] theorem State.reg_setReg_ne (s : State) {r q : RegIdx} (v : Word) (h : q ≠ r) :
    (s.setReg r v).reg q = s.reg q := by
  have hn : r.toNat ≠ q.toNat := fun e => h (BitVec.eq_of_toNat_eq e.symm)
  simp [State.reg, State.setReg, hn]

/-- A register reads the register file alone. -/
theorem State.reg_congr {s t : State} (h : t.regs = s.regs) (r : RegIdx) : t.reg r = s.reg r := by
  simp [State.reg, h]

/-- Two register files that read alike are equal. -/
theorem State.regs_ext {s t : State} (h : ∀ r, t.reg r = s.reg r) : t.regs = s.regs := by
  apply Vector.ext
  intro i hi
  simpa [State.reg, Nat.mod_eq_of_lt hi] using h (BitVec.ofNat 3 i)

end Sys2Proof.Machine
end

