-- ==== Sys2Proof/Laws/Ops.lean ====
section
/-! SUPPORT. What each shared operation can do, said once.  A meaning is one of these operations over its
operands, so a proof about an instruction cites the lemma of its operation. -/

namespace Sys2Proof.Machine

/-! ### Memory access -/

theorem State.memRead_valid {s : State} {a : Word} (h : s.params.addrValid a = true) :
    s.memRead a = .ok (s.mem.read a.toNat) := by simp [State.memRead, h]

theorem State.memRead_invalid {s : State} {a : Word} (h : s.params.addrValid a = false) :
    s.memRead a = .error (.memoryFault a s.pc) := by simp [State.memRead, h]

theorem State.memWrite_valid {s : State} {a : Word} (v : Word) (h : s.params.addrValid a = true) :
    s.memWrite a v = .ok (s.mem.write a.toNat v) := by simp [State.memWrite, h]

theorem State.memWrite_invalid {s : State} {a : Word} (v : Word) (h : s.params.addrValid a = false) :
    s.memWrite a v = .error (.memoryFault a s.pc) := by simp [State.memWrite, h]

/-! ### The operations that always give a next state -/

theorem SameRun.refl_upd (s : State) (x : Vector Word 8) (m : Memory) (n : Word) :
    SameRun s { s with regs := x, mem := m, pc := n } := ⟨rfl, rfl, rfl, rfl, rfl, rfl⟩

/-- `writeReg` writes its register and advances. -/
theorem State.writeReg_spec (s : State) (r : RegIdx) (v : Word) :
    ∃ t, s.writeReg r v = .next t ∧ RegisterStep s t r v (s.pc + 1) :=
  ⟨_, rfl, s.reg_setReg_same r v, fun _ h => s.reg_setReg_ne v h, rfl, ⟨rfl, fun _ => rfl⟩,
    ⟨rfl, rfl, rfl, rfl, rfl, rfl⟩⟩

/-- `linkAndJump` writes `pc + 1` to register 7 and goes to the target. -/
theorem State.linkAndJump_spec (s : State) (n : Word) :
    ∃ t, s.linkAndJump n = .next t ∧ RegisterStep s t 7 (s.pc + 1) n :=
  ⟨_, rfl, s.reg_setReg_same 7 _, fun _ h => s.reg_setReg_ne _ h, rfl, ⟨rfl, fun _ => rfl⟩,
    ⟨rfl, rfl, rfl, rfl, rfl, rfl⟩⟩

/-- `jumpTo` goes to the target and changes nothing else. -/
theorem State.jumpTo_spec (s : State) (n : Word) : ∃ t, s.jumpTo n = .next t ∧ PcStep s t n :=
  ⟨_, rfl, fun _ => rfl, rfl, ⟨rfl, fun _ => rfl⟩, ⟨rfl, rfl, rfl, rfl, rfl, rfl⟩⟩

/-- `branch` goes to the target if taken, else advances, and changes nothing else. -/
theorem State.branch_spec (s : State) (b : Bool) (n : Word) :
    ∃ t, s.branch b n = .next t ∧ PcStep s t (if b then n else s.pc + 1) := by
  cases b <;>
    exact ⟨_, rfl, fun _ => rfl, rfl, ⟨rfl, fun _ => rfl⟩, ⟨rfl, rfl, rfl, rfl, rfl, rfl⟩⟩

/-! ### The load and the store -/

theorem State.loadReg_valid {s : State} {r : RegIdx} {a : Word} (h : s.params.addrValid a = true) :
    ∃ t, s.loadReg r a = .next t ∧ RegisterStep s t r (s.mem.read a.toNat) (s.pc + 1) := by
  simpa [State.loadReg, State.memRead_valid h] using s.writeReg_spec r (s.mem.read a.toNat)

theorem State.loadReg_invalid {s : State} {r : RegIdx} {a : Word} (h : s.params.addrValid a = false) :
    s.loadReg r a = .fault (.memoryFault a s.pc) := by
  simp [State.loadReg, State.memRead_invalid h]

/-- The state after a store, as it is. -/
theorem State.storeWord_eq {s : State} {a : Word} (v : Word) (h : s.params.addrValid a = true) :
    s.storeWord a v = .next { s with mem := s.mem.write a.toNat v, pc := s.pc + 1 } := by
  simp [State.storeWord, State.commit, State.memWrite_valid v h, Effect.applyRegs]

theorem State.storeWord_valid {s : State} {a : Word} (v : Word) (h : s.params.addrValid a = true)
    (hm : s.mem.wf = true) : ∃ t, s.storeWord a v = .next t ∧ StoreStep s t a v :=
  ⟨_, State.storeWord_eq v h, fun _ => rfl, rfl, Memory.read_write_same hm _ v,
    fun _ hb => Memory.read_write_ne v hb, ⟨rfl, rfl, rfl, rfl, rfl, rfl⟩⟩

theorem State.storeWord_invalid {s : State} {a : Word} (v : Word) (h : s.params.addrValid a = false) :
    s.storeWord a v = .fault (.memoryFault a s.pc) := by
  simp [State.storeWord, State.commit, State.memWrite_invalid v h]

/-! ### Every operation, by cases -/

/-- All a commit can do: a `MemoryFault` of its own store, or the one next state. -/
theorem State.commit_cases (s : State) (e : Effect) :
    (∃ a v, e.memWrite = some (a, v) ∧ s.params.addrValid a = false ∧
      s.commit e = .fault (.memoryFault a s.pc)) ∨
    (∃ m, (e.memWrite = none ∧ m = s.mem ∨
        ∃ a v, e.memWrite = some (a, v) ∧ s.params.addrValid a = true ∧ m = s.mem.write a.toNat v) ∧
      s.commit e = .next { s with regs := e.applyRegs s, mem := m, pc := e.nextPc.getD (s.pc + 1) }) := by
  rcases hw : e.memWrite with _ | ⟨a, v⟩
  · exact Or.inr ⟨s.mem, Or.inl ⟨rfl, rfl⟩, by simp [State.commit, hw]⟩
  · cases hv : s.params.addrValid a
    · exact Or.inl ⟨a, v, rfl, hv, by simp [State.commit, hw, State.memWrite_invalid v hv]⟩
    · exact Or.inr ⟨_, Or.inr ⟨a, v, rfl, hv, rfl⟩, by simp [State.commit, hw, State.memWrite_valid v hv]⟩

/-- A next state of a load is its write of the word read. -/
theorem State.loadReg_cases (s : State) (r : RegIdx) (a : Word) :
    (s.params.addrValid a = false ∧ s.loadReg r a = .fault (.memoryFault a s.pc)) ∨
    (s.params.addrValid a = true ∧ s.loadReg r a = s.writeReg r (s.mem.read a.toNat)) := by
  cases h : s.params.addrValid a
  · exact Or.inl ⟨rfl, State.loadReg_invalid h⟩
  · exact Or.inr ⟨rfl, by simp [State.loadReg, State.memRead_valid h]⟩

end Sys2Proof.Machine
end

