-- ==== Sys2Proof/Laws/Step.lean ====
section
/-! SUPPORT. What a step of the run controller can do, said once (spec/10_state.md R31, R33). -/

namespace Sys2Proof.Machine

/-- The fetch succeeds exactly when the PC is inside the program. -/
theorem State.fetch_isSome (s : State) : s.fetch.isSome = s.pcInProgram := by
  unfold State.fetch
  cases h : s.pcInProgram
  · rfl
  · simp only [State.pcInProgram, Bool.and_eq_true, decide_eq_true_eq] at h
    have hb : s.pc.toInt = s.pc.toNat := by
      have hc := BitVec.toInt_eq_toNat_cond s.pc
      have hl := s.pc.isLt
      split at hc <;> omega
    have hlt : s.pc.toNat < s.program.length := by omega
    simp [hlt]

theorem State.fetch_eq_none {s : State} (h : s.pcInProgram = false) : s.fetch = none := by
  simp [State.fetch, h]

theorem State.fetch_eq_some {s : State} (h : s.pcInProgram = true) : ∃ p, s.fetch = some p := by
  have := s.fetch_isSome
  rw [h, Option.isSome_iff_exists] at this
  exact this

/-- Everything a step can do. -/
theorem step_cases (s : State) :
    (s.status = .running ∧ s.kill = true ∧ step s = .next s.killRun) ∨
    (s.status = .running ∧ s.kill = false ∧ s.pcInProgram = false ∧ step s = .next s.halt) ∨
    (s.status = .running ∧ s.kill = false ∧ s.pcInProgram = true ∧ s.cancel = true ∧
      step s = .next s.cancelRun) ∨
    (s.Executing ∧ ∃ p, s.fetch = some p ∧ step s = s.settle (exec p.instr s)) ∨
    (∃ e, s.status = .faulted e ∧ step s = .fault e) ∨
    ((s.status = .halted ∨ s.status = .cancelled ∨ s.status = .killed) ∧ step s = .next s) := by
  unfold step State.stepRun
  cases hs : s.status with
  | running =>
    cases hk : s.kill with
    | true => simp
    | false =>
      cases hp : s.pcInProgram with
      | false => simp [State.stepRunning, State.fetch_eq_none hp]
      | true =>
        obtain ⟨p, hf⟩ := State.fetch_eq_some hp
        cases hc : s.cancel with
        | true => simp [State.stepRunning, hf, hc]
        | false => simp [State.stepRunning, hf, hc, State.Executing, hs, hk, hp]
  | halted => simp
  | cancelled => simp
  | killed => simp
  | faulted e => simp

end Sys2Proof.Machine
end

