-- ==== Sys2Proof/Laws/Exec.lean ====
section
/-! SUPPORT. Every instruction is one shared operation over its operands: the case split a proof about all
instructions starts from. -/

namespace Sys2Proof.Machine

/-- An instruction writes one register, loads, stores, branches, jumps or links and jumps; the load
and the store are the ones with a memory address, and the register written is `writtenRegister`. -/
theorem exec_cases (i : Instr) (s : State) :
    (∃ r v, exec i s = s.writeReg r v ∧ memoryAddress i s = none ∧ writtenRegister i = some r ∧ i.mnemonic ≠ .sw) ∨
    (∃ r a, exec i s = s.loadReg r a ∧ memoryAddress i s = some a ∧ writtenRegister i = some r ∧
      i.mnemonic ≠ .sw) ∨
    (∃ a v, exec i s = s.storeWord a v ∧ memoryAddress i s = some a ∧ writtenRegister i = none ∧ i.mnemonic = .sw) ∨
    (∃ b n, exec i s = s.branch b n ∧ memoryAddress i s = none ∧ writtenRegister i = none ∧ i.mnemonic ≠ .sw) ∨
    (∃ n, exec i s = s.jumpTo n ∧ memoryAddress i s = none ∧ writtenRegister i = none ∧ i.mnemonic ≠ .sw) ∨
    (∃ n, exec i s = s.linkAndJump n ∧ memoryAddress i s = none ∧ writtenRegister i = some 7 ∧
      i.mnemonic ≠ .sw) := by
  cases i <;>
    first
      | exact Or.inl ⟨_, _, rfl, rfl, rfl, by simp [Instr.mnemonic]⟩
      | exact Or.inr (Or.inl ⟨_, _, rfl, rfl, rfl, by simp [Instr.mnemonic]⟩)
      | exact Or.inr (Or.inr (Or.inl ⟨_, _, rfl, rfl, rfl, by simp [Instr.mnemonic]⟩))
      | exact Or.inr (Or.inr (Or.inr (Or.inl ⟨_, _, rfl, rfl, rfl, by simp [Instr.mnemonic]⟩)))
      | exact Or.inr (Or.inr (Or.inr (Or.inr (Or.inl ⟨_, rfl, rfl, rfl, by simp [Instr.mnemonic]⟩))))
      | exact Or.inr (Or.inr (Or.inr (Or.inr (Or.inr ⟨_, rfl, rfl, rfl, by simp [Instr.mnemonic]⟩))))

end Sys2Proof.Machine
end

