-- ==== Sys2Proof/Laws/PerInstr.lean ====
section
/-! SUPPORT. Statements about every instruction as syntax, one lemma per constructor. -/

namespace Sys2Proof.Laws

/-- Under every opcode map, the opcode field of an instruction's word is the map's number for its
mnemonic (R91), so its format is the one the map's number selects (R75). -/
def OpcodeField.Statement (i : Instr) : Prop :=
  ∀ om : OpMap, opcodeOf (encode om i) = om.opcode i.mnemonic

theorem OpcodeField.and (rd rs rt : RegIdx) : OpcodeField.Statement (.and rd rs rt) :=
  fun om => opcodeOf_wordR om .and rs rt rd

theorem OpcodeField.or (rd rs rt : RegIdx) : OpcodeField.Statement (.or rd rs rt) :=
  fun om => opcodeOf_wordR om .or rs rt rd

theorem OpcodeField.xor (rd rs rt : RegIdx) : OpcodeField.Statement (.xor rd rs rt) :=
  fun om => opcodeOf_wordR om .xor rs rt rd

theorem OpcodeField.add (rd rs rt : RegIdx) : OpcodeField.Statement (.add rd rs rt) :=
  fun om => opcodeOf_wordR om .add rs rt rd

theorem OpcodeField.sub (rd rs rt : RegIdx) : OpcodeField.Statement (.sub rd rs rt) :=
  fun om => opcodeOf_wordR om .sub rs rt rd

theorem OpcodeField.slt (rd rs rt : RegIdx) : OpcodeField.Statement (.slt rd rs rt) :=
  fun om => opcodeOf_wordR om .slt rs rt rd

theorem OpcodeField.sltu (rd rs rt : RegIdx) : OpcodeField.Statement (.sltu rd rs rt) :=
  fun om => opcodeOf_wordR om .sltu rs rt rd

theorem OpcodeField.sll (rt rs : RegIdx) (imm5 : BitVec 5) : OpcodeField.Statement (.sll rt rs imm5) :=
  fun om => opcodeOf_wordI om .sll rs rt imm5

theorem OpcodeField.srl (rt rs : RegIdx) (imm5 : BitVec 5) : OpcodeField.Statement (.srl rt rs imm5) :=
  fun om => opcodeOf_wordI om .srl rs rt imm5

theorem OpcodeField.sra (rt rs : RegIdx) (imm5 : BitVec 5) : OpcodeField.Statement (.sra rt rs imm5) :=
  fun om => opcodeOf_wordI om .sra rs rt imm5

theorem OpcodeField.ror (rt rs : RegIdx) (imm5 : BitVec 5) : OpcodeField.Statement (.ror rt rs imm5) :=
  fun om => opcodeOf_wordI om .ror rs rt imm5

theorem OpcodeField.andi (rt rs : RegIdx) (imm5 : BitVec 5) : OpcodeField.Statement (.andi rt rs imm5) :=
  fun om => opcodeOf_wordI om .andi rs rt imm5

theorem OpcodeField.candi (rt rs : RegIdx) (imm5 : BitVec 5) : OpcodeField.Statement (.candi rt rs imm5) :=
  fun om => opcodeOf_wordI om .candi rs rt imm5

theorem OpcodeField.ori (rt rs : RegIdx) (imm5 : BitVec 5) : OpcodeField.Statement (.ori rt rs imm5) :=
  fun om => opcodeOf_wordI om .ori rs rt imm5

theorem OpcodeField.xori (rt rs : RegIdx) (imm5 : BitVec 5) : OpcodeField.Statement (.xori rt rs imm5) :=
  fun om => opcodeOf_wordI om .xori rs rt imm5

theorem OpcodeField.addi (rt rs : RegIdx) (imm5 : BitVec 5) : OpcodeField.Statement (.addi rt rs imm5) :=
  fun om => opcodeOf_wordI om .addi rs rt imm5

theorem OpcodeField.slti (rt rs : RegIdx) (imm5 : BitVec 5) : OpcodeField.Statement (.slti rt rs imm5) :=
  fun om => opcodeOf_wordI om .slti rs rt imm5

theorem OpcodeField.sltiu (rt rs : RegIdx) (imm5 : BitVec 5) : OpcodeField.Statement (.sltiu rt rs imm5) :=
  fun om => opcodeOf_wordI om .sltiu rs rt imm5

theorem OpcodeField.lw (rt rs : RegIdx) (imm5 : BitVec 5) : OpcodeField.Statement (.lw rt rs imm5) :=
  fun om => opcodeOf_wordI om .lw rs rt imm5

theorem OpcodeField.sw (rt rs : RegIdx) (imm5 : BitVec 5) : OpcodeField.Statement (.sw rt rs imm5) :=
  fun om => opcodeOf_wordI om .sw rs rt imm5

theorem OpcodeField.beqz (rs : RegIdx) (imm8 : BitVec 8) : OpcodeField.Statement (.beqz rs imm8) :=
  fun om => opcodeOf_wordB om .beqz rs imm8

theorem OpcodeField.bnez (rs : RegIdx) (imm8 : BitVec 8) : OpcodeField.Statement (.bnez rs imm8) :=
  fun om => opcodeOf_wordB om .bnez rs imm8

theorem OpcodeField.bltz (rs : RegIdx) (imm8 : BitVec 8) : OpcodeField.Statement (.bltz rs imm8) :=
  fun om => opcodeOf_wordB om .bltz rs imm8

theorem OpcodeField.bgez (rs : RegIdx) (imm8 : BitVec 8) : OpcodeField.Statement (.bgez rs imm8) :=
  fun om => opcodeOf_wordB om .bgez rs imm8

theorem OpcodeField.bgtz (rs : RegIdx) (imm8 : BitVec 8) : OpcodeField.Statement (.bgtz rs imm8) :=
  fun om => opcodeOf_wordB om .bgtz rs imm8

theorem OpcodeField.blez (rs : RegIdx) (imm8 : BitVec 8) : OpcodeField.Statement (.blez rs imm8) :=
  fun om => opcodeOf_wordB om .blez rs imm8

theorem OpcodeField.jr (rs : RegIdx) (imm8 : BitVec 8) : OpcodeField.Statement (.jr rs imm8) :=
  fun om => opcodeOf_wordB om .jr rs imm8

theorem OpcodeField.jalr (rs : RegIdx) (imm8 : BitVec 8) : OpcodeField.Statement (.jalr rs imm8) :=
  fun om => opcodeOf_wordB om .jalr rs imm8

theorem OpcodeField.j (imm11 : BitVec 11) : OpcodeField.Statement (.j imm11) :=
  fun om => opcodeOf_wordJ om .j imm11

theorem OpcodeField.jal (imm11 : BitVec 11) : OpcodeField.Statement (.jal imm11) :=
  fun om => opcodeOf_wordJ om .jal imm11

theorem OpcodeField.set (imm11 : BitVec 11) : OpcodeField.Statement (.set imm11) :=
  fun om => opcodeOf_wordJ om .set imm11

theorem OpcodeField.sset (imm11 : BitVec 11) : OpcodeField.Statement (.sset imm11) :=
  fun om => opcodeOf_wordJ om .sset imm11

end Sys2Proof.Laws
end

