-- ==== Sys2Proof/Tests/Slice0.lean ====
section
/-! SUPPORT. Tests of the model, each on one word or one step, with expected results from spec/95_test_vectors.md
and the examples and corner cases of the instruction rules; the ill-formed terms the checks refuse; and,
for every statement with hypotheses, a state and operands that meet them. -/

namespace Sys2Proof.Tests

open Sys2Proof Sys2Proof.Machine Sys2Proof.Asm

/-! ### Decoding: one word per constructor, its bits written from the pattern of R78 -/

theorem test_decode_and : decodeWord OpMap.reference 0b0000001001110100 = some (.and 5 2 3) := by decide
theorem test_decode_or : decodeWord OpMap.reference 0b0000001001110110 = some (.or 5 2 3) := by decide
theorem test_decode_xor : decodeWord OpMap.reference 0b0000001001110111 = some (.xor 5 2 3) := by decide
theorem test_decode_add : decodeWord OpMap.reference 0b0000101001110100 = some (.add 5 2 3) := by decide
theorem test_decode_sub : decodeWord OpMap.reference 0b0000101001110101 = some (.sub 5 2 3) := by decide
theorem test_decode_slt : decodeWord OpMap.reference 0b0000101001110110 = some (.slt 5 2 3) := by decide
theorem test_decode_sltu : decodeWord OpMap.reference 0b0000101001110111 = some (.sltu 5 2 3) := by decide
theorem test_decode_sll : decodeWord OpMap.reference 0b0010001010110011 = some (.sll 5 2 0b10011) := by decide
theorem test_decode_srl : decodeWord OpMap.reference 0b0010101010110011 = some (.srl 5 2 0b10011) := by decide
theorem test_decode_sra : decodeWord OpMap.reference 0b0011001010110011 = some (.sra 5 2 0b10011) := by decide
theorem test_decode_ror : decodeWord OpMap.reference 0b0011101010110011 = some (.ror 5 2 0b10011) := by decide
theorem test_decode_andi : decodeWord OpMap.reference 0b0100001010110011 = some (.andi 5 2 0b10011) := by decide
theorem test_decode_candi : decodeWord OpMap.reference 0b0100101010110011 = some (.candi 5 2 0b10011) := by decide
theorem test_decode_ori : decodeWord OpMap.reference 0b0101001010110011 = some (.ori 5 2 0b10011) := by decide
theorem test_decode_xori : decodeWord OpMap.reference 0b0101101010110011 = some (.xori 5 2 0b10011) := by decide
theorem test_decode_addi : decodeWord OpMap.reference 0b0110001010110011 = some (.addi 5 2 0b10011) := by decide
theorem test_decode_slti : decodeWord OpMap.reference 0b0110101010110011 = some (.slti 5 2 0b10011) := by decide
theorem test_decode_sltiu : decodeWord OpMap.reference 0b0111001010110011 = some (.sltiu 5 2 0b10011) := by decide
theorem test_decode_lw : decodeWord OpMap.reference 0b0111101010110011 = some (.lw 5 2 0b10011) := by decide
theorem test_decode_sw : decodeWord OpMap.reference 0b1000001010110011 = some (.sw 5 2 0b10011) := by decide
theorem test_decode_beqz : decodeWord OpMap.reference 0b1010011010000101 = some (.beqz 6 0b10000101) := by decide
theorem test_decode_bnez : decodeWord OpMap.reference 0b1010111010000101 = some (.bnez 6 0b10000101) := by decide
theorem test_decode_bltz : decodeWord OpMap.reference 0b1011011010000101 = some (.bltz 6 0b10000101) := by decide
theorem test_decode_bgez : decodeWord OpMap.reference 0b1011111010000101 = some (.bgez 6 0b10000101) := by decide
theorem test_decode_bgtz : decodeWord OpMap.reference 0b1100011010000101 = some (.bgtz 6 0b10000101) := by decide
theorem test_decode_blez : decodeWord OpMap.reference 0b1100111010000101 = some (.blez 6 0b10000101) := by decide
theorem test_decode_jr : decodeWord OpMap.reference 0b1101011010000101 = some (.jr 6 0b10000101) := by decide
theorem test_decode_jalr : decodeWord OpMap.reference 0b1101111010000101 = some (.jalr 6 0b10000101) := by decide
theorem test_decode_j : decodeWord OpMap.reference 0b1110010000000110 = some (.j 0b10000000110) := by decide
theorem test_decode_jal : decodeWord OpMap.reference 0b1110110000000110 = some (.jal 0b10000000110) := by decide
theorem test_decode_set : decodeWord OpMap.reference 0b1111010000000110 = some (.set 0b10000000110) := by decide
theorem test_decode_sset : decodeWord OpMap.reference 0b1111110000000110 = some (.sset 0b10000000110) := by decide

/-- The two unassigned slots and the four opcodes of no format (R80, R81). -/
theorem test_decode_unassigned : decodeWord OpMap.reference 0x0001 = none ∧ decodeWord OpMap.reference 0x8FFF = none := by
  decide
theorem test_decode_no_format : decodeWord OpMap.reference 0x1000 = none ∧ decodeWord OpMap.reference 0x1800 = none ∧
    decodeWord OpMap.reference 0x9000 = none ∧ decodeWord OpMap.reference 0x9800 = none := by decide

theorem test_decode_table_word : decodeTableWord 16 0x0A64 = some (.add 1 2 3) := rfl

/-- Encoder vectors (section 2.2). -/
theorem test_encode_vectors :
    encode OpMap.reference (.add 1 2 3) = 0x0A64 ∧ encode OpMap.reference (.sll 1 2 31) = 0x223F ∧
    encode OpMap.reference (.addi 1 2 0b10000) = 0x6230 ∧ encode OpMap.reference (.jalr 3 0xFF) = 0xDBFF ∧
    encode OpMap.reference (.j 0b10000000000) = 0xE400 := by decide

/-! ### Well-formedness: an ill-formed record for each check -/

def goodAddi : Record := { mn := .addi, lineNo := 1, stepNo := 0, rs := 2, rt := 1, imm := -16 }

theorem wellformed_accepts : goodAddi.wf Imm5Signed.default = true := by decide

/-- Operand value out of the mnemonic's range. -/
theorem wellformed_refuses_range : Record.wf Imm5Signed.default { goodAddi with imm := 16 } = false := by decide

/-- A label still unresolved. -/
theorem wellformed_refuses_label :
    Record.wf Imm5Signed.default { mn := .j, lineNo := 1, stepNo := 0, jumpto := some "L".toList } = false := by decide

/-- A field outside the format. -/
theorem wellformed_refuses_foreign_field : Record.wf Imm5Signed.default { goodAddi with rd := 3 } = false := by decide

/-- A label where the mnemonic takes none (R98), and a label beside an immediate. -/
theorem wellformed_refuses_label_of_jr :
    Record.labelWf { mn := .jr, lineNo := 1, stepNo := 0, rs := 7, jumpto := some "L".toList } = false ∧
    Record.labelWf { mn := .j, lineNo := 1, stepNo := 0, imm := 1, jumpto := some "L".toList } = false := by decide

/-- A map that gives two mnemonics one key, or a mnemonic another format's opcode, is inconsistent. -/
theorem wellformed_refuses_bad_maps :
    ¬ OpMap.Consistent ⟨fun _ => 4, fun _ => 0⟩ ∧ OpMap.reference.Consistent :=
  ⟨fun h => by have := h.1 .and; revert this; decide, OpMap.reference_consistent⟩

/-- Memories that are not in canonical form. -/
theorem wellformed_refuses_memories :
    Memory.wf [(1, 5), (0, 5)] = false ∧ Memory.wf [(1, 5), (1, 6)] = false ∧ Memory.wf [(1, 0)] = false ∧
    Memory.wf [(2 ^ 32, 5)] = false ∧ Memory.wf [(0, 5), (1, 6)] = true := by decide

/-! ### One step of each instruction -/

/-- A state at step `pc` with registers and memory given, `MEM_VALID` the 16 words of the vectors. -/
def at' (pc : Word) (regs : Vector Word 8) (mem : Memory) : State :=
  { State.start (Params.default 16) [] regs mem 0 with pc := pc }

/-- Registers 0 but for the pairs given. -/
def regs (l : List (RegIdx × Word)) : Vector Word 8 :=
  l.foldl (fun v c => v.set c.1.toFin c.2 c.1.toFin.isLt) (Vector.replicate 8 0)

/-- One register after an instruction. -/
def regAfter (i : Instr) (s : State) (r : RegIdx) : Option Word :=
  match exec i s with | .next t => some (t.reg r) | .fault _ => none | .refused _ => none

/-- The PC after an instruction, as a signed integer. -/
def pcAfter (i : Instr) (s : State) : Option Int :=
  match exec i s with | .next t => some t.pc.toInt | .fault _ => none | .refused _ => none

/-- A word after an instruction. -/
def memAfter (i : Instr) (s : State) (a : Nat) : Option Word :=
  match exec i s with | .next t => some (t.mem.read a) | .fault _ => none | .refused _ => none

/-- The fault of an instruction. -/
def faultOf (i : Instr) (s : State) : Option Fault :=
  match exec i s with | .next _ => none | .fault e => some e | .refused _ => none

theorem test_exec_and : regAfter (.and 1 2 3) (at' 0 (regs [(2, 0xFF0F), (3, 0x0FF0)]) []) 1 = some 0x0F00 := by decide
theorem test_exec_or : regAfter (.or 1 2 3) (at' 0 (regs [(2, 0xFF0F), (3, 0x0FF0)]) []) 1 = some 0xFFFF := by decide
theorem test_exec_xor : regAfter (.xor 1 2 3) (at' 0 (regs [(2, 0xFF0F), (3, 0x0FF0)]) []) 1 = some 0xF0FF := by decide
theorem test_exec_add_wraps : regAfter (.add 1 2 3) (at' 0 (regs [(2, 0x7FFFFFFF), (3, 1)]) []) 1 = some 0x80000000 := by decide
theorem test_exec_add_same : regAfter (.add 2 2 2) (at' 0 (regs [(2, 5)]) []) 2 = some 10 := by decide
theorem test_exec_sub_order : regAfter (.sub 1 2 3) (at' 0 (regs [(2, 2), (3, 5)]) []) 1 = some 0xFFFFFFFD := by decide
theorem test_exec_sub_wraps : regAfter (.sub 1 2 3) (at' 0 (regs [(2, 0x80000000), (3, 1)]) []) 1 = some 0x7FFFFFFF := by decide
theorem test_exec_slt_signed : regAfter (.slt 1 2 3) (at' 0 (regs [(2, 0x80000000), (3, 0x7FFFFFFF)]) []) 1 = some 1 := by decide
theorem test_exec_sltu_is_signed : regAfter (.sltu 1 2 3) (at' 0 (regs [(2, 0xFFFFFFFF), (3, 1)]) []) 1 = some 1 := by decide
theorem test_exec_sltu_unsigned : regAfter (.sltu 1 2 3)
    { at' 0 (regs [(2, 0xFFFFFFFF), (3, 1)]) [] with params := { Params.default 16 with sltuUnsigned := true } } 1 = some 0 := by decide
theorem test_exec_sll : regAfter (.sll 1 2 4) (at' 0 (regs [(2, 0xF0000001)]) []) 1 = some 0x10 := by decide
theorem test_exec_srl : regAfter (.srl 1 2 31) (at' 0 (regs [(2, 0x80000000)]) []) 1 = some 1 := by decide
theorem test_exec_sra : regAfter (.sra 1 2 4) (at' 0 (regs [(2, 0xFFFFFFE0)]) []) 1 = some 0xFFFFFFFE := by decide
theorem test_exec_ror : regAfter (.ror 1 2 4) (at' 0 (regs [(2, 0x12345678)]) []) 1 = some 0x81234567 := by decide
theorem test_exec_ror_zero : regAfter (.ror 1 2 0) (at' 0 (regs [(2, 0x12345678)]) []) 1 = some 0x12345678 := by decide
theorem test_exec_andi_zero_extends : regAfter (.andi 1 2 31) (at' 0 (regs [(2, 0xFFFFFFFF)]) []) 1 = some 31 := by decide
theorem test_exec_candi : regAfter (.candi 1 2 31) (at' 0 (regs [(2, 0xFFFFFFFF)]) []) 1 = some 31 := by decide
theorem test_exec_ori : regAfter (.ori 1 2 31) (at' 0 (regs [(2, 0x80000000)]) []) 1 = some 0x8000001F := by decide
theorem test_exec_xori : regAfter (.xori 1 2 31) (at' 0 (regs [(2, 0xFFFFFFFF)]) []) 1 = some 0xFFFFFFE0 := by decide
theorem test_exec_addi_sign_extends : regAfter (.addi 1 2 0b10000) (at' 0 (regs []) []) 1 = some 0xFFFFFFF0 := by decide
theorem test_exec_slti : regAfter (.slti 1 2 0b11111) (at' 0 (regs [(2, 0xFFFFFFFE)]) []) 1 = some 1 := by decide
theorem test_exec_sltiu_is_signed : regAfter (.sltiu 1 2 0b11111) (at' 0 (regs [(2, 5)]) []) 1 = some 0 := by decide
theorem test_exec_lw_negative_offset : regAfter (.lw 1 2 0b11111) (at' 0 (regs [(2, 5)]) [(4, 0xFFFFFFF9)]) 1 = some 0xFFFFFFF9 := by decide
theorem test_exec_lw_faults : faultOf (.lw 1 2 1) (at' 3 (regs [(2, 0x7FFFFFFF)]) []) = some (.memoryFault 0x80000000 3) := by decide
theorem test_exec_sw : memAfter (.sw 3 0 3) (at' 0 (regs [(3, 21)]) []) 3 = some 21 := by decide
theorem test_exec_sw_faults : faultOf (.sw 1 1 15) (at' 0 (regs [(1, 1)]) []) = some (.memoryFault 16 0) := by decide
theorem test_exec_beqz_taken : pcAfter (.beqz 1 3) (at' 2 (regs []) []) = some 5 := by decide
theorem test_exec_beqz_not_taken : pcAfter (.beqz 1 3) (at' 2 (regs [(1, 1)]) []) = some 3 := by decide
theorem test_exec_bnez_backwards : pcAfter (.bnez 2 0xFC) (at' 7 (regs [(2, 2)]) []) = some 3 := by decide
theorem test_exec_bltz : pcAfter (.bltz 1 0xFB) (at' 2 (regs [(1, 0xFFFFFFFF)]) []) = some (-3) := by decide
theorem test_exec_bltz_zero : pcAfter (.bltz 1 0xFB) (at' 2 (regs []) []) = some 3 := by decide
theorem test_exec_bgez_minimum : pcAfter (.bgez 1 2) (at' 0 (regs [(1, 0x80000000)]) []) = some 1 := by decide
theorem test_exec_bgez_zero : pcAfter (.bgez 1 2) (at' 0 (regs []) []) = some 2 := by decide
theorem test_exec_bgtz_zero : pcAfter (.bgtz 1 2) (at' 0 (regs []) []) = some 1 := by decide
theorem test_exec_bgtz_one : pcAfter (.bgtz 1 2) (at' 0 (regs [(1, 1)]) []) = some 2 := by decide
theorem test_exec_blez_zero : pcAfter (.blez 1 2) (at' 0 (regs []) []) = some 2 := by decide
theorem test_exec_blez_one : pcAfter (.blez 1 2) (at' 0 (regs [(1, 1)]) []) = some 1 := by decide
theorem test_exec_jr : pcAfter (.jr 3 0xFF) (at' 0 (regs []) []) = some (-1) := by decide
theorem test_exec_jalr_through_link : pcAfter (.jalr 7 0) (at' 4 (regs [(7, 10)]) []) = some 10 ∧
    regAfter (.jalr 7 0) (at' 4 (regs [(7, 10)]) []) 7 = some 5 := by decide
theorem test_exec_j : pcAfter (.j 0b10000000000) (at' 1000 (regs []) []) = some (-24) := by decide
theorem test_exec_jal : pcAfter (.jal 3) (at' 2 (regs [(7, 99)]) []) = some 5 ∧ regAfter (.jal 3) (at' 2 (regs [(7, 99)]) []) 7 = some 3 := by decide
theorem test_exec_set : regAfter (.set 2047) (at' 0 (regs [(0, 0x12345678)]) []) 0 = some 0x7FF := by decide
theorem test_exec_sset : regAfter (.sset 0) (at' 0 (regs [(0, 0x003FFFFF)]) []) 0 = some 0xFFFFF800 := by decide

/-! ### Assembler, loader and host (section 2.2) -/

/-- The words of one source text, or the failure. -/
def asm (l : List String) : Except Failure (List Text) :=
  assemble OpMap.reference Imm5Signed.default (l.map String.toList)

theorem test_assemble_example : asm ["add $1,$2,$3", "j 0"] = .ok ["00000A64".toList, "0000E000".toList] := by decide
theorem test_assemble_backward_label :
    asm ["L: add $1,$1,$1", "", "j 0", "J 0", "j L"] =
      .ok ["00000924".toList, "0000E000".toList, "0000E000".toList, "0000E7FD".toList] := by decide
theorem test_assemble_undefined_label : asm ["beqz $1, X"] = .error (.labelNotFound "X".toList 1) := by decide
theorem test_assemble_duplicate_label : asm ["L:", "L: j 0"] = .error (.syntaxException 2) := by decide
theorem test_assemble_ranges :
    asm ["addi $1,$2,16"] = .error (.malformedOperand 1 "16".toList) ∧
    asm ["andi $1,$2,-1"] = .error (.malformedOperand 1 "-1".toList) ∧
    asm ["set 2048"] = .error (.malformedOperand 1 "2048".toList) ∧
    asm ["j 1024"] = .error (.malformedOperand 1 "1024".toList) ∧
    asm ["add $8,$1,$2"] = .error (.malformedOperand 1 "$8".toList) := by decide
theorem test_assemble_arity : asm ["jr $7"] = .error (.arityMismatch 1 2 1) := by decide
theorem test_load_lines :
    loadProgram OpMap.reference ["0000e000".toList] = .ok [⟨.j 0, 0, 0⟩] ∧
    loadProgram OpMap.reference ["0A64".toList] = .error (.syntaxException 0) ∧
    loadProgram OpMap.reference ["00010A64".toList] = .error (.syntaxException 0) ∧
    loadProgram OpMap.reference ["0000E00G".toList] = .error (.syntaxException 0) ∧
    loadProgram OpMap.reference ["00000A64".toList, "00001000".toList] =
      .error (.invalidInstructionKind 0x1000 1 1) := by decide
theorem test_host_register_index :
    State.reset.hostGet 8 = .error (.registerIndexFault 8) ∧ State.reset.hostGet (-1) = .error (.registerIndexFault (-1)) := by
  decide

/-! ### Runs of one step -/

/-- A start of a run of one instruction at step 0. -/
def oneInstr (i : Instr) (r : Vector Word 8) : State := State.start (Params.default 16) [⟨i, 0, 0⟩] r [] 0

/-- The word of a table row, placed by `withFetchWord` after reset, is what the next step runs. -/
theorem test_withFetchWord : step (State.reset.withFetchWord 16 0xDF00) =
    .next { State.reset.withFetchWord 16 0xDF00 with pc := 0, regs := regs [(7, 1)] } := rfl

theorem test_withFetchWord_illegal : step (State.reset.withFetchWord 16 0x8800) =
    .fault (.invalidInstructionKind 0x8800) := rfl

/-- Cancellation and an out-of-range PC at one boundary: the halt wins (decision D18). -/
theorem test_halt_before_cancel : step ({ State.reset with cancel := true }) =
    .next { State.reset with cancel := true, status := .halted } := rfl

/-! ### Witnesses: the hypotheses of each statement are met -/

def loop : State := oneInstr (.j 0) (regs [])
def badLoad : State := oneInstr (.lw 1 2 0b11111) (regs [])
def badStore : State := oneInstr (.sw 1 2 0b11111) (regs [])
def ref : OpMap := OpMap.reference
def df : Imm5Signed := Imm5Signed.default
def labelled : Record := { mn := .beqz, lineNo := 4, stepNo := 200, rs := 1, jumpto := some "L".toList }
def lj : Record := { mn := .j, lineNo := 4, stepNo := 2000, jumpto := some "L".toList }

theorem loop_executing : loop.Executing := ⟨rfl, rfl, rfl, rfl⟩
theorem loop_stays (n : Nat) : runSteps n loop = loop := by
  induction n with
  | zero => rfl
  | succ n ih =>
    have h : step loop = .next loop := rfl
    simpa [runSteps, h] using ih

theorem witness_DecodeOfEncodeIsTheInstruction : ref.Consistent := OpMap.reference_consistent
theorem witness_RecordsAndWordsRoundTrip : ref.Consistent ∧
    decodeRecord ref 0x6230 1 0 = .ok ⟨.addi 1 2 0b10000, 1, 0⟩ ∧ goodAddi.wf df = true ∧
    Record.wf df { mn := .set, lineNo := 1, stepNo := 0, imm := 2047 } = true :=
  ⟨OpMap.reference_consistent, by decide, by decide, by decide⟩
theorem witness_IllegalWordsAreExactlyThese : ref.Consistent ∧ illegalWord 0x8800 ∧ illegalWord 0x0001 ∧
    ¬ illegalWord 0x0002 ∧ ¬ illegalWord 0x87FF :=
  ⟨OpMap.reference_consistent, by unfold illegalWord; decide⟩
theorem witness_FormatFollowsTheOpcode : decodeWord ref 0xF7FF = some (.set 2047) := by decide
theorem witness_EncoderPlacesFieldsAndChecksRange :
    (goodAddi.jumpto = none ∧ immInRange df goodAddi.mn goodAddi.imm = true) ∧
    (goodAddi.jumpto = none ∧ immInRange df goodAddi.mn 16 = false ∧ immInRange df goodAddi.mn (-17) = false) ∧
    labelled.jumpto ≠ none ∧ encodeRecord ref df goodAddi = .ok 0x6230 := by decide
theorem witness_ExtensionsFillAsStated : (0 : Nat) < 32 ∧ (31 : Nat) < 32 ∧ (sext5 0b10000).toInt = -16 := by decide
theorem witness_ImmediateValuesAndRanges : Mnemonic.lw.format = .i ∧ Mnemonic.jalr.format = .b := by decide
theorem witness_RunsStartInTheInvariant : preseed (Params.default 16) [(15, 1), (0, 2)] [] = .ok [(0, 2), (15, 1)] := by
  decide
theorem witness_StepKeepsTheInvariant :
    (loop.Inv ∧ ∃ t, step loop = .next t) ∧ (badLoad.Inv ∧ ∃ t, step badLoad = .next t) :=
  ⟨⟨⟨rfl, rfl, trivial⟩, _, rfl⟩, ⟨rfl, rfl, trivial⟩, _, rfl⟩
theorem witness_ProgramStoreIsImmutable : step loop = .next loop ∧ ∃ u : State, u.program = loop.program ∧ u.pc = loop.pc :=
  ⟨rfl, loop, rfl, rfl⟩
theorem witness_CanonicalMemoriesAreDeterminedByTheirWords : Memory.wf [(0, 5)] = true ∧
    Memory.wf (Memory.write [(0, 5), (1, 6)] 1 0) = true ∧
    ∀ a, Memory.read [(0, 5)] a = Memory.read (Memory.write [(0, 5), (1, 6)] 1 0) a :=
  ⟨rfl, rfl, fun _ => rfl⟩
theorem witness_StepRunsTheFetchedInstruction :
    (loop.Executing ∧ loop.fetch = some ⟨.j 0, 0, 0⟩ ∧ exec (.j 0) loop = .next loop) ∧
    (badLoad.Executing ∧ badLoad.fetch = some ⟨.lw 1 2 0b11111, 0, 0⟩ ∧
      exec (.lw 1 2 0b11111) badLoad = .fault (.memoryFault 0xFFFFFFFF 0)) :=
  ⟨⟨loop_executing, rfl, rfl⟩, ⟨rfl, rfl, rfl, rfl⟩, rfl, rfl⟩
/-- One case for each outcome: a next state, and the fault of an LW at address -1. -/
theorem witness_StepRunsTheLoadedWord : (loadProgram ref ["0000E000".toList] = .ok [⟨.j 0, 0, 0⟩] ∧
    loop.program = [⟨.j 0, 0, 0⟩] ∧ loop.Executing ∧ exec (.j 0) loop = .next loop) ∧
    (loadProgram ref ["00007A3F".toList] = .ok badLoad.program ∧ badLoad.Executing ∧
      exec (.lw 1 2 0b11111) badLoad = .fault (.memoryFault 0xFFFFFFFF 0)) :=
  ⟨⟨by decide, rfl, loop_executing, rfl⟩, by decide, ⟨rfl, rfl, rfl, rfl⟩, rfl⟩
theorem witness_PcOutsideTheProgramHalts :
    (({ loop with pc := 1 } : State).status = .running ∧ ({ loop with pc := 1 } : State).kill = false ∧
      (loop.program.length : Int) ≤ ({ loop with pc := 1 } : State).pc.toInt) ∧
    ({ loop with pc := 0xFFFFFFFF } : State).pc.toInt < 0 ∧
    (loop.requestCancel.status = .running ∧ loop.requestCancel.pcInProgram = true ∧ loop.requestCancel.cancel = true) ∧
    (∃ t, (oneInstr (.set 1) (regs [])).Executing ∧ (oneInstr (.set 1) (regs [])).fetch = some ⟨.set 1, 0, 0⟩ ∧
      step (oneInstr (.set 1) (regs [])) = .next t ∧ t.pc.toInt = 1 ∧ t.status = .running) :=
  ⟨by decide, by decide, by decide, _, ⟨rfl, rfl, rfl, rfl⟩, rfl, rfl, rfl, rfl⟩
theorem witness_CancellationEndsTheRunBetweenSteps :
    loop.requestCancel.status = .running ∧ loop.requestCancel.kill = false ∧ loop.requestCancel.cancel = true ∧
      loop.requestCancel.pcInProgram = true := by decide
theorem witness_KillEndsTheRun : loop.requestKill.status = .running ∧ loop.requestKill.kill = true := by decide
theorem witness_EndedRunsStayAsTheyAre : loop.halt.Ended ∧ step loop.halt = .next loop.halt ∧
    (loop.recordFault (.memoryFault 0 0)).Ended :=
  ⟨(fun h => by cases h), rfl, (fun h => by cases h)⟩
theorem witness_RunsAreDeterministic :
    (loop.status = .running ∧ ({ loop with draws := 3 } : State).status = .running ∧ loop.kill = false ∧
      ({ loop with draws := 3 } : State).pc = loop.pc ∧ step loop = .next loop) ∧
    (runSteps 2 (oneInstr (.set 1) (regs []))).status = .halted ∧
    (runSteps 5 ({ oneInstr (.set 1) (regs []) with draws := 3 })).status = .halted :=
  ⟨⟨rfl, rfl, rfl, rfl, rfl⟩, rfl, rfl⟩
theorem witness_WatchdogEndsEveryRun : loop.status = .running ∧ loop.cancel = false ∧ loop.kill = false ∧
    ∀ n, (runSteps n loop).status = .running :=
  ⟨rfl, rfl, rfl, fun n => by rw [loop_stays]; rfl⟩
theorem witness_SelfJumpNeverHalts : loop.Executing ∧ loop.fetch = some ⟨.j 0, 0, 0⟩ := ⟨loop_executing, rfl⟩
theorem witness_MemoryFaultsArePrecise : badLoad.Executing ∧ badLoad.fetch = some ⟨.lw 1 2 0b11111, 0, 0⟩ ∧
    memoryAddress (.lw 1 2 0b11111) badLoad = some 0xFFFFFFFF ∧ badLoad.params.addrValid 0xFFFFFFFF = false :=
  ⟨⟨rfl, rfl, rfl, rfl⟩, by decide, by decide, by decide⟩
theorem witness_FatalErrorsHaveTheseCausesOnly : exec (.sw 1 2 0b11111) badStore = .fault (.memoryFault 0xFFFFFFFF 0) ∧
    loop.hostGet 8 = .error (.registerIndexFault 8) ∧ loop.hostSet (-1) 0 = .error (.registerIndexFault (-1)) :=
  ⟨rfl, by decide, by decide⟩
/-- The first and the last word that exist, for LW and for SW; no hypothesis for the other instructions. -/
theorem witness_EveryInstructionCompletes :
    (∀ ea, memoryAddress (.lw 1 2 0) loop = some ea → loop.params.addrValid ea = true) ∧
    (∀ ea, memoryAddress (.lw 1 2 15) loop = some ea → loop.params.addrValid ea = true) ∧
    (∀ ea, memoryAddress (.sw 1 2 0) loop = some ea → loop.params.addrValid ea = true) ∧
    (∀ ea, memoryAddress (.sw 1 2 15) loop = some ea → loop.params.addrValid ea = true) ∧
    (∀ ea, memoryAddress (.add 1 2 3) loop = some ea → loop.params.addrValid ea = true) := by
  refine ⟨?_, ?_, ?_, ?_, ?_⟩ <;> intro ea h <;> cases h <;> decide
theorem witness_PcAdvancesUnlessSet : (∃ t, exec (.set 1) loop = .next t) ∧ ∃ t, exec (.beqz 1 3) loop = .next t :=
  ⟨⟨_, rfl⟩, _, rfl⟩
theorem witness_RegistersChangeOnlyAsNamed :
    (∃ t, exec (.set 1) loop = .next t ∧ t.reg 0 ≠ loop.reg 0) ∧
    (∃ t, exec (.jal 1) loop = .next t ∧ t.reg 7 ≠ loop.reg 7) ∧
    (∃ t, exec (.addi 3 2 1) loop = .next t ∧ t.reg 3 ≠ loop.reg 3) :=
  ⟨⟨_, rfl, by decide⟩, ⟨_, rfl, by decide⟩, _, rfl, by decide⟩
/-- A store at the last word that exists, a form that writes the link register, and one that writes no
register. -/
theorem witness_AtMostOneWriteOfEachKind :
    ((∃ t, exec (.sw 1 2 15) loop = .next t) ∧ (Instr.sw 1 2 15).mnemonic = .sw) ∧
    ((∃ t, exec (.jalr 7 0) loop = .next t) ∧ (Instr.jalr 7 0).mnemonic ≠ .sw ∧
      writtenRegister (.jalr 7 0) ≠ some 0) ∧
    (∃ t, exec (.j 0) loop = .next t) ∧ writtenRegister (.j 0) ≠ some 7 :=
  ⟨⟨⟨_, rfl⟩, rfl⟩, ⟨⟨_, rfl⟩, by decide, by decide⟩, ⟨_, rfl⟩, by decide⟩
theorem witness_OnlyLoadAndStoreTouchMemory : (∃ t, exec (.lw 1 2 0) loop = .next t) ∧ (∃ t, exec (.sw 1 2 0) loop = .next t) ∧
    (Instr.lw 1 2 0).mnemonic ≠ .sw ∧ (Instr.sw 1 2 0).mnemonic ≠ .lw := ⟨⟨_, rfl⟩, ⟨_, rfl⟩, by decide, by decide⟩
theorem witness_ReadsReturnTheLastWrite : loop.mem.wf = true ∧ loop.memWrite 15 9 = .ok [(15, 9)] := by decide
theorem witness_AccessesFollowMemValid : loop.params.addrValid 0 = true ∧ loop.params.addrValid 15 = true ∧
    loop.params.addrValid 16 = false ∧ loop.params.addrValid 0xFFFFFFFF = false ∧ loop.mem.wf = true := by
  decide
theorem witness_CandiResult : loop.params.imm5Signed.candi = loop.params.imm5Signed.andi := rfl
theorem witness_LoadWordResult :
    loop.params.addrValid (loop.effectiveAddress .lw 2 15) = true ∧
    badLoad.params.addrValid (badLoad.effectiveAddress .lw 2 0b11111) = false ∧ badLoad.Executing ∧
    badLoad.fetch = some ⟨.lw 1 2 0b11111, 0, 0⟩ := ⟨by decide, by decide, ⟨rfl, rfl, rfl, rfl⟩, rfl⟩
theorem witness_StoreWordResult : loop.mem.wf = true ∧
    loop.params.addrValid (loop.effectiveAddress .sw 2 15) = true ∧
    badStore.params.addrValid (badStore.effectiveAddress .sw 2 0b11111) = false ∧ badStore.Executing ∧
    badStore.fetch = some ⟨.sw 1 2 0b11111, 0, 0⟩ := ⟨rfl, by decide, by decide, ⟨rfl, rfl, rfl, rfl⟩, rfl⟩
theorem witness_TwoStepConstant : (∃ t, exec (.set 1) loop = .next t ∧ t.reg 0 ≠ loop.reg 0) ∧
    loop.reg 3 = 0 ∧ (4194303 : Nat) < 2 ^ 22 := ⟨⟨_, rfl, by decide⟩, by decide, by decide⟩
theorem witness_CallsReturnToTheNextStep : (∃ d, Instr.jal 3 = .jal d) ∧ (∃ r d, Instr.jalr 7 0 = .jalr r d) ∧
    ∃ t, exec (.jal 3) loop = .next t ∧ t.reg 7 = t.reg 7 := ⟨⟨3, rfl⟩, ⟨7, 0, rfl⟩, _, rfl, rfl⟩
theorem witness_LoaderDecodesEveryLineInOrder :
    loadProgram ref ["0000E000".toList] = .ok [⟨.j 0, 0, 0⟩] ∧
    loadProgram ref ["0000E000".toList, "x".toList] = .error (.syntaxException 1) ∧
    "x".toList.length ≠ 8 ∧ (∃ c ∈ "0000E00G".toList, hexDigitValue c = none) ∧
    hexValue "00010000".toList = some 0x10000 ∧ hexValue "0000FFFF".toList = some 0xFFFF ∧
    (hexDigitValue '0' = some 0 ∧ hexDigitValue 'F' = some 15 ∧ hexDigitValue 'f' = some 15 ∧
      hexDigitValue 'a' = some 10 ∧ hexDigitValue '9' = some 9) :=
  ⟨by decide, by decide, by decide, ⟨'G', by decide, by decide⟩, by decide, by decide, by decide⟩
theorem witness_BadStreamsNeverStart :
    (["x".toList][0]? = some "x".toList ∧ ∀ q, loadLine ref 0 "x".toList ≠ .ok q) ∧
    launch ref (Params.default 16) ["0000E000".toList] (regs []) [] 0 = .ok loop ∧
    preseed (Params.default 16) [(15, 9)] [] = .ok [(15, 9)] ∧
    loadProgram ref ["0000E000".toList] = .ok loop.program :=
  ⟨⟨rfl, fun q h => by have e : loadLine ref 0 "x".toList = .error (.syntaxException 0) := by decide
                       rw [e] at h; cases h⟩, by decide, by decide, by decide⟩
theorem witness_AssembledStreamsLoad : ref.Consistent ∧
    assemble ref df ["j 0".toList] = .ok ["0000E000".toList] := ⟨OpMap.reference_consistent, by decide⟩
/-- A blank line, a bare label before an instruction, and a label after the last one (R102). -/
theorem witness_StepNumbersCountInstructions :
    let src := ["".toList, "A:".toList, "j A".toList, "B:".toList]
    (pass1 df src = .ok ⟨[("B".toList, 1), ("A".toList, 0)],
      [{ mn := .j, lineNo := 3, stepNo := 0, jumpto := some "A".toList }]⟩) ∧
    (src.map hasInstr = [false, false, true, false] ∧
      src.map lineLabel = [none, some "A".toList, none, some "B".toList]) ∧
    instrsBefore src 1 = 0 ∧ instrsBefore src 3 = 1 := by
  decide
theorem witness_LabelsAreDefinedOnce : (∃ p, pass1 df ["A: j A".toList] = .ok p) ∧
    Labels.find [("A".toList, 3)] "A".toList = some 3 ∧
    (lineLabel "A: j A".toList = some "A".toList ∧ lineLabel "A:".toList = some "A".toList ∧
      ∃ p, pass1 df (["A: j A".toList, "A:".toList].take 1) = .ok p) :=
  ⟨⟨⟨[("A".toList, 0)], [{ mn := .j, lineNo := 1, stepNo := 0, jumpto := some "A".toList }]⟩, by decide⟩, by decide, by decide, by decide,
    ⟨[("A".toList, 0)], [{ mn := .j, lineNo := 1, stepNo := 0, jumpto := some "A".toList }]⟩, by decide⟩
/-- The last offset that fits and the first that does not, at both ends of imm8 and imm11, and an
absent label. -/
theorem witness_LabelsResolveToTheirStep :
    (labelled.jumpto = some "L".toList ∧ labelled.mn.takesLabel = true ∧ lj.mn.takesLabel = true) ∧
    Labels.find [] "L".toList = none ∧
    (resolve df [("L".toList, 327)] labelled = .ok { labelled with imm := 127, jumpto := none } ∧
      resolve df [("L".toList, 328)] labelled = .error (.rangeError 4) ∧
      resolve df [("L".toList, 72)] labelled = .ok { labelled with imm := -128, jumpto := none } ∧
      resolve df [("L".toList, 71)] labelled = .error (.rangeError 4)) ∧
    (resolve df [("L".toList, 3023)] lj = .ok { lj with imm := 1023, jumpto := none } ∧
      resolve df [("L".toList, 3024)] lj = .error (.rangeError 4) ∧
      resolve df [("L".toList, 976)] lj = .ok { lj with imm := -1024, jumpto := none } ∧
      resolve df [("L".toList, 975)] lj = .error (.rangeError 4)) ∧
    ({ loop with pc := 200 } : State).pc = BitVec.ofNat 32 labelled.stepNo ∧
    explicitTarget (Record.toInstr { labelled with imm := 127, jumpto := none }) { loop with pc := 200 } = some 327 := by
  decide
theorem witness_WrongOperandCountsAreNamed : ["$1".toList].length ≠ (operandForm .add).arity := by decide
theorem witness_RenderedInstructionsParseBack : goodAddi.wf df = true ∧
    (labelled.labelWf = true ∧ ∀ n, labelled.jumpto = some n → isIdent n = true) :=
  ⟨by decide, by decide, fun n h => by cases h; decide⟩
theorem witness_EndedRunsAreReported : loop.halt.Ended ∧ ¬ loop.Ended ∧ loop.halt.params.addrValid 15 = true :=
  ⟨(fun h => by cases h), (fun h => h rfl), by decide⟩

end Sys2Proof.Tests
end

section
/-! PROOF. The immediate extensions of spec/00_scope.md R11: the number and the bits of an extended
field, first at any width, then for the five extensions of the ISA; O7 is assembled from them. -/

namespace Sys2Proof

/-! ### Fields of any width -/

/-- Above a field's top bit, sign extension repeats that bit. -/
theorem getLsbD_signExtend_eq_getLsbD_min {w W k : Nat} (v : BitVec w) (hw : 0 < w) (hk : k < W) :
    (v.signExtend W).getLsbD k = v.getLsbD (min k (w - 1)) := by
  rw [BitVec.getLsbD_signExtend, decide_eq_true hk, Bool.true_and]
  split
  case isTrue inField => rw [Nat.min_eq_left (by omega)]
  case isFalse above => rw [Nat.min_eq_right (by omega), BitVec.msb_eq_getLsbD_last]

/-- Above a field's top bit, zero extension holds zeros. -/
theorem getLsbD_setWidth_eq_and_getLsbD {w W k : Nat} (v : BitVec w) (hk : k < W) :
    (v.setWidth W).getLsbD k = (decide (k < w) && v.getLsbD k) := by
  rw [BitVec.getLsbD_setWidth, decide_eq_true hk, Bool.true_and]
  by_cases inField : k < w
  · simp [inField]
  · simp [inField, BitVec.getLsbD_of_ge v k (by omega)]

/-- Zero extension to a greater width makes the signed number the field's unsigned one. -/
theorem toInt_setWidth_eq_toNat {w W : Nat} (v : BitVec w) (h : w < W) :
    (v.setWidth W).toInt = v.toNat := by
  have topBitClear : (v.setWidth W).msb = false := by
    rw [BitVec.msb_eq_getLsbD_last, getLsbD_setWidth_eq_and_getLsbD v (by omega),
      decide_eq_false (by omega), Bool.false_and]
  rw [BitVec.toInt_eq_toNat_of_msb topBitClear, BitVec.toNat_setWidth_of_le (Nat.le_of_lt h)]

/-- The signed numbers of a field are exactly the two's complement range. -/
theorem exists_toInt_eq_iff {w : Nat} (hw : 0 < w) (n : Int) :
    (∃ v : BitVec w, v.toInt = n) ↔ -2 ^ (w - 1) ≤ n ∧ n < 2 ^ (w - 1) := by
  constructor
  · rintro ⟨v, rfl⟩
    exact ⟨v.le_toInt, v.toInt_lt⟩
  · rintro ⟨lower, upper⟩
    exact ⟨BitVec.ofInt w n, BitVec.toInt_ofInt_eq_self hw lower upper⟩

/-- The unsigned numbers of a field are exactly those below `2 ^ w`. -/
theorem exists_toNat_eq_iff {w : Nat} (n : Int) :
    (∃ v : BitVec w, (v.toNat : Int) = n) ↔ 0 ≤ n ∧ n < 2 ^ w := by
  constructor
  · rintro ⟨v, rfl⟩
    exact ⟨Int.natCast_nonneg _, mod_cast v.isLt⟩
  · rintro ⟨lower, upper⟩
    obtain ⟨m, rfl⟩ := Int.eq_ofNat_of_zero_le lower
    exact ⟨BitVec.ofNat w m, by rw [BitVec.toNat_ofNat, Nat.mod_eq_of_lt (mod_cast upper)]⟩

/-! ### The extensions of the ISA: bits -/

theorem zext5_getLsbD (v : BitVec 5) {k : Nat} (hk : k < 32) :
    (zext5 v).getLsbD k = (decide (k < 5) && v.getLsbD k) := getLsbD_setWidth_eq_and_getLsbD v hk

theorem sext5_getLsbD (v : BitVec 5) {k : Nat} (hk : k < 32) :
    (sext5 v).getLsbD k = v.getLsbD (min k 4) := getLsbD_signExtend_eq_getLsbD_min v (by decide) hk

theorem sext8_getLsbD (v : BitVec 8) {k : Nat} (hk : k < 32) :
    (sext8 v).getLsbD k = v.getLsbD (min k 7) := getLsbD_signExtend_eq_getLsbD_min v (by decide) hk

theorem zext11_getLsbD (v : BitVec 11) {k : Nat} (hk : k < 32) :
    (zext11 v).getLsbD k = (decide (k < 11) && v.getLsbD k) := getLsbD_setWidth_eq_and_getLsbD v hk

theorem sext11_getLsbD (v : BitVec 11) {k : Nat} (hk : k < 32) :
    (sext11 v).getLsbD k = v.getLsbD (min k 10) := getLsbD_signExtend_eq_getLsbD_min v (by decide) hk

/-! ### The extensions of the ISA: numbers -/

@[simp] theorem zext5_toInt (v : BitVec 5) : (zext5 v).toInt = v.toNat :=
  toInt_setWidth_eq_toNat v (by decide)

@[simp] theorem sext5_toInt (v : BitVec 5) : (sext5 v).toInt = v.toInt :=
  BitVec.toInt_signExtend_of_le (by decide)

@[simp] theorem sext8_toInt (v : BitVec 8) : (sext8 v).toInt = v.toInt :=
  BitVec.toInt_signExtend_of_le (by decide)

@[simp] theorem zext11_toInt (v : BitVec 11) : (zext11 v).toInt = v.toNat :=
  toInt_setWidth_eq_toNat v (by decide)

@[simp] theorem sext11_toInt (v : BitVec 11) : (sext11 v).toInt = v.toInt :=
  BitVec.toInt_signExtend_of_le (by decide)

/-! ### The extensions of the ISA: ranges -/

theorem exists_zext5_toInt_eq_iff (n : Int) : (∃ v, (zext5 v).toInt = n) ↔ 0 ≤ n ∧ n ≤ 31 := by
  simp only [zext5_toInt, exists_toNat_eq_iff]
  omega

theorem exists_sext5_toInt_eq_iff (n : Int) : (∃ v, (sext5 v).toInt = n) ↔ -16 ≤ n ∧ n ≤ 15 := by
  simp only [sext5_toInt, exists_toInt_eq_iff (w := 5) (by decide)]
  omega

theorem exists_sext8_toInt_eq_iff (n : Int) : (∃ v, (sext8 v).toInt = n) ↔ -128 ≤ n ∧ n ≤ 127 := by
  simp only [sext8_toInt, exists_toInt_eq_iff (w := 8) (by decide)]
  omega

theorem exists_zext11_toInt_eq_iff (n : Int) : (∃ v, (zext11 v).toInt = n) ↔ 0 ≤ n ∧ n ≤ 2047 := by
  simp only [zext11_toInt, exists_toNat_eq_iff]
  omega

theorem exists_sext11_toInt_eq_iff (n : Int) :
    (∃ v, (sext11 v).toInt = n) ↔ -1024 ≤ n ∧ n ≤ 1023 := by
  simp only [sext11_toInt, exists_toInt_eq_iff (w := 11) (by decide)]
  omega

/-- Settles O7: the bits and the range of each extension, from its own lemmas. -/
theorem extensionsFillAsStated : Obligations.ExtensionsFillAsStated :=
  ⟨fun v _ hk => ⟨zext5_getLsbD v hk, sext5_getLsbD v hk⟩,
   fun v _ hk => sext8_getLsbD v hk,
   fun v _ hk => ⟨zext11_getLsbD v hk, sext11_getLsbD v hk⟩,
   fun n => ⟨(exists_sext5_toInt_eq_iff n).symm, (exists_zext5_toInt_eq_iff n).symm,
     (exists_sext8_toInt_eq_iff n).symm, (exists_zext11_toInt_eq_iff n).symm,
     (exists_sext11_toInt_eq_iff n).symm⟩⟩

end Sys2Proof
end

section
/-! PROOF. The run controller as equations: what a step is in each of its cases (spec/10_state.md R31,
R33, R34, R221), what every instruction and every step keep, and runs of several steps.  O17 is
assembled from them. -/

namespace Sys2Proof.Machine

/-! ### One step, case by case -/

theorem State.pcInProgram_eq_false_iff {s : State} :
    s.pcInProgram = false ↔ s.pc.toInt < 0 ∨ (s.program.length : Int) ≤ s.pc.toInt := by
  simp only [State.pcInProgram, Bool.and_eq_false_iff, decide_eq_false_iff_not]
  omega

/-- A run has ended by a fault, or in a status whose step stands still. -/
theorem State.ended_iff {s : State} :
    s.Ended ↔ (∃ e, s.status = .faulted e) ∨
      (s.status = .halted ∨ s.status = .cancelled ∨ s.status = .killed) := by
  unfold State.Ended
  cases s.status <;> simp

theorem State.ended_of_halted {s : State} (h : s.status = .halted) : s.Ended :=
  State.ended_iff.2 (Or.inr (Or.inl h))

theorem step_of_pcOutside {s : State} (hr : s.status = .running) (hk : s.kill = false)
    (hp : s.pcInProgram = false) : step s = .next s.halt := by
  simp [step, State.stepRun, State.stepRunning, hr, hk, State.fetch_eq_none hp]

theorem step_of_cancel {s : State} (hr : s.status = .running) (hk : s.kill = false)
    (hp : s.pcInProgram = true) (hc : s.cancel = true) : step s = .next s.cancelRun := by
  obtain ⟨p, hf⟩ := State.fetch_eq_some hp
  simp [step, State.stepRun, State.stepRunning, hr, hk, hf, hc]

theorem step_of_executing {s : State} {p : Loaded} (h : s.Executing) (hf : s.fetch = some p) :
    step s = s.settle (exec p.instr s) := by
  obtain ⟨hr, hk, hc, -⟩ := h
  simp [step, State.stepRun, State.stepRunning, hr, hk, hf, hc]

theorem step_of_faulted {s : State} {e : Fault} (h : s.status = .faulted e) : step s = .fault e := by
  simp [step, State.stepRun, h]

theorem step_of_final {s : State}
    (h : s.status = .halted ∨ s.status = .cancelled ∨ s.status = .killed) : step s = .next s := by
  rcases h with h | h | h <;> simp [step, State.stepRun, h]

/-- No step moves an ended run. -/
theorem eq_of_step_of_ended {s t : State} (h : s.Ended) (hst : step s = .next t) : t = s := by
  obtain ⟨e, he⟩ | hfin := State.ended_iff.1 h
  · rw [step_of_faulted he] at hst
    cases hst
  · rw [step_of_final hfin] at hst
    cases hst
    rfl

/-! ### What an instruction and a step keep -/

theorem State.commit_sameRun {s t : State} {e : Effect} (h : s.commit e = .next t) : SameRun s t := by
  obtain ⟨_, _, _, _, hc⟩ | ⟨m, _, hc⟩ := s.commit_cases e <;> rw [hc] at h <;> cases h
  exact SameRun.refl_upd s _ m _

/-- An instruction touches nothing of the run but PC, registers and memory. -/
theorem exec_sameRun {i : Instr} {s t : State} (h : exec i s = .next t) : SameRun s t := by
  obtain ⟨r, v, hi, -⟩ | ⟨r, a, hi, -⟩ | ⟨a, v, hi, -⟩ | ⟨b, n, hi, -⟩ | ⟨n, hi, -⟩ | ⟨n, hi, -⟩ :=
    exec_cases i s <;> rw [hi] at h
  case inr.inl =>
    obtain ⟨-, hl⟩ | ⟨-, hl⟩ := s.loadReg_cases r a <;> rw [hl] at h
    · cases h
    · exact State.commit_sameRun h
  all_goals exact State.commit_sameRun h

/-- What a step makes of an instruction keeps parameters, program and the kill input. -/
theorem State.settle_exec_frame {i : Instr} {s t : State} (h : s.settle (exec i s) = .next t) :
    t.params = s.params ∧ t.program = s.program ∧ t.kill = s.kill := by
  cases he : exec i s with
  | next u =>
    rw [he] at h
    cases h
    obtain ⟨hparams, hprog, -, -, hkill, -⟩ := exec_sameRun he
    exact ⟨hparams, hprog, hkill⟩
  | fault e =>
    rw [he] at h
    cases h
    exact ⟨rfl, rfl, rfl⟩
  | refused r =>
    rw [he] at h
    cases h

/-- A step keeps parameters, program and the kill input. -/
theorem step_frame {s t : State} (h : step s = .next t) :
    t.params = s.params ∧ t.program = s.program ∧ t.kill = s.kill := by
  obtain ⟨-, -, hs⟩ | ⟨-, -, -, hs⟩ | ⟨-, -, -, -, hs⟩ | ⟨-, p, -, hs⟩ | ⟨e, -, hs⟩ | ⟨-, hs⟩ :=
    step_cases s <;> rw [hs] at h
  case inr.inr.inr.inl => exact State.settle_exec_frame h
  case inr.inr.inr.inr.inl => cases h
  all_goals
    cases h
    exact ⟨rfl, rfl, rfl⟩

/-! ### Runs of several steps -/

theorem runSteps_succ_of_next {s t : State} (h : step s = .next t) (n : Nat) :
    runSteps (n + 1) s = runSteps n t := by
  simp [runSteps, h]

/-- A run whose step gives no next state stays where it is. -/
theorem runSteps_of_stuck {s : State} (h : ∀ t, step s ≠ .next t) (n : Nat) : runSteps n s = s := by
  cases n with
  | zero => rfl
  | succ n =>
    cases hs : step s with
    | next t => exact absurd hs (h t)
    | fault e => simp [runSteps, hs]
    | refused r => simp [runSteps, hs]

theorem runSteps_of_ended {s : State} (h : s.Ended) (n : Nat) : runSteps n s = s := by
  induction n with
  | zero => rfl
  | succ n ih =>
    cases hs : step s with
    | next t => rw [runSteps_succ_of_next hs, eq_of_step_of_ended h hs, ih]
    | fault e => simp [runSteps, hs]
    | refused r => simp [runSteps, hs]

theorem runSteps_add (n k : Nat) (s : State) : runSteps (n + k) s = runSteps k (runSteps n s) := by
  induction n generalizing s with
  | zero => simp [runSteps]
  | succ n ih =>
    by_cases hs : ∃ t, step s = .next t
    · obtain ⟨t, ht⟩ := hs
      rw [Nat.succ_add, runSteps_succ_of_next ht, runSteps_succ_of_next ht, ih]
    · have stuck : ∀ t, step s ≠ .next t := fun t ht => hs ⟨t, ht⟩
      simp only [runSteps_of_stuck stuck]

/-- An ended run has one end, however many steps were allowed. -/
theorem runSteps_eq_of_ended {s : State} {n k : Nat} (hn : (runSteps n s).Ended)
    (hk : (runSteps k s).Ended) : runSteps n s = runSteps k s := by
  obtain h | h := Nat.le_total n k <;> obtain ⟨d, rfl⟩ := Nat.exists_eq_add_of_le h
  · rw [runSteps_add, runSteps_of_ended hn]
  · rw [runSteps_add, runSteps_of_ended hk]

/-! ### O17 -/

/-- The step after a run fell off its program's end halts it. -/
theorem step_of_pc_eq_length {s t : State} (h : s.Executing) (hst : step s = .next t)
    (hpc : t.pc.toInt = s.program.length) (hr : t.status = .running) : step t = .next t.halt := by
  obtain ⟨-, hprog, hkill⟩ := step_frame hst
  obtain ⟨-, hk, -, -⟩ := h
  refine step_of_pcOutside hr (hkill.trans hk) (State.pcInProgram_eq_false_iff.2 (Or.inr ?_))
  rw [hprog, hpc]

/-- Settles O17: the first three clauses by the step of a PC outside the program, the last by the step
of a cancelled run. -/
theorem pcOutsideTheProgramHalts : Obligations.PcOutsideTheProgramHalts := by
  refine ⟨fun s hr hk hp => ?_, fun p initR initM d => ?_, fun s t p he _ hst hpc hr => ?_,
    fun s hr hk hp hc => ?_⟩
  · exact ⟨s.halt, step_of_pcOutside hr hk (State.pcInProgram_eq_false_iff.2 hp), rfl, rfl, fun _ => rfl,
      ⟨rfl, fun _ => rfl⟩, rfl⟩
  · exact ⟨_, step_of_pcOutside rfl rfl rfl, rfl, rfl⟩
  · exact ⟨t.halt, step_of_pc_eq_length he hst hpc hr, rfl, hpc⟩
  · exact ⟨s.cancelRun, step_of_cancel hr hk hp hc, rfl⟩

end Sys2Proof.Machine
end

section
/-! PROOF. What an instruction does not read (spec/10_state.md R31, R35): status, cancel and the model's
draw counter are carried through `exec` untouched, and so is the draw counter through steps and runs
that draw nothing.  O20 and O21 are assembled from that. -/

namespace Sys2Proof.Machine

/-- The outcome with its next state, if it has one, changed. -/
def mapNext (f : State → State) : Host.Outcome State Fault Refusal → Host.Outcome State Fault Refusal
  | .next t => .next (f t)
  | .fault e => .fault e
  | .refused r => .refused r

/-- The state with status, cancel and draw counter changed: what no instruction reads. -/
def State.mapControl (g : RunStatus → RunStatus) (c : Bool → Bool) (d : Nat → Nat) (s : State) : State :=
  { s with status := g s.status, cancel := c s.cancel, draws := d s.draws }

/-- The state with its draw counter set. -/
def State.withDraws (d : Nat) (s : State) : State := { s with draws := d }

section
variable (g : RunStatus → RunStatus) (c : Bool → Bool) (d : Nat → Nat) (s : State)

theorem State.commit_mapControl (e : Effect) :
    (s.mapControl g c d).commit e = mapNext (State.mapControl g c d) (s.commit e) := by
  obtain ⟨regWrite, memWrite, nextPc⟩ := e
  cases memWrite with
  | none => rfl
  | some w =>
    obtain ⟨a, v⟩ := w
    cases hv : s.params.addrValid a
    · simp only [State.commit, State.memWrite_invalid v hv,
        State.memWrite_invalid (s := s.mapControl g c d) v hv]
      rfl
    · simp only [State.commit, State.memWrite_valid v hv,
        State.memWrite_valid (s := s.mapControl g c d) v hv]
      rfl

theorem State.writeReg_mapControl (r : RegIdx) (v : Word) :
    (s.mapControl g c d).writeReg r v = mapNext (State.mapControl g c d) (s.writeReg r v) :=
  State.commit_mapControl g c d s _

theorem State.storeWord_mapControl (a v : Word) :
    (s.mapControl g c d).storeWord a v = mapNext (State.mapControl g c d) (s.storeWord a v) :=
  State.commit_mapControl g c d s _

theorem State.branch_mapControl (taken : Bool) (n : Word) :
    (s.mapControl g c d).branch taken n = mapNext (State.mapControl g c d) (s.branch taken n) :=
  State.commit_mapControl g c d s _

theorem State.jumpTo_mapControl (n : Word) :
    (s.mapControl g c d).jumpTo n = mapNext (State.mapControl g c d) (s.jumpTo n) :=
  State.commit_mapControl g c d s _

theorem State.linkAndJump_mapControl (n : Word) :
    (s.mapControl g c d).linkAndJump n = mapNext (State.mapControl g c d) (s.linkAndJump n) :=
  State.commit_mapControl g c d s _

theorem State.loadReg_mapControl (r : RegIdx) (a : Word) :
    (s.mapControl g c d).loadReg r a = mapNext (State.mapControl g c d) (s.loadReg r a) := by
  cases hv : s.params.addrValid a
  · rw [State.loadReg_invalid hv, State.loadReg_invalid (s := s.mapControl g c d) hv]
    rfl
  · simp only [State.loadReg, State.memRead_valid hv, State.memRead_valid (s := s.mapControl g c d) hv]
    exact State.writeReg_mapControl g c d s r _

/-- No instruction reads status, cancel or the draw counter: its operands are the same in both states, and
its operation carries the three through. -/
theorem exec_mapControl (i : Instr) :
    exec i (s.mapControl g c d) = mapNext (State.mapControl g c d) (exec i s) := by
  cases i
  case lw => exact State.loadReg_mapControl g c d s _ _
  case sw => exact State.storeWord_mapControl g c d s _ _
  case beqz | bnez | bltz | bgez | bgtz | blez => exact State.branch_mapControl g c d s _ _
  case jr | j => exact State.jumpTo_mapControl g c d s _
  case jalr | jal => exact State.linkAndJump_mapControl g c d s _
  all_goals exact State.writeReg_mapControl g c d s _ _

end

/-! ### O20 -/

/-- Settles O20: an ended run stands still, its step answering by its status, and `exec` carries status
and cancel through. -/
theorem endedRunsStayAsTheyAre : Obligations.EndedRunsStayAsTheyAre := by
  refine ⟨fun s hs => ⟨fun t => eq_of_step_of_ended hs, runSteps_of_ended hs, ?_⟩,
    fun p prog initR initM d => ⟨rfl, rfl⟩, fun i s st c => ?_⟩
  · obtain ⟨e, he⟩ | hfin := State.ended_iff.1 hs
    · rw [step_of_faulted (s := s.requestCancel) he, he]
    · rw [step_of_final (s := s.requestCancel) hfin]
      rcases hfin with h | h | h <;> rw [h]
  · have carried := exec_mapControl (fun _ => st) (fun _ => c) id s i
    exact carried.trans (by cases exec i s <;> rfl)

/-! ### O21 -/

theorem exec_withDraws (i : Instr) (s : State) (d : Nat) :
    exec i (s.withDraws d) = mapNext (State.withDraws d) (exec i s) :=
  exec_mapControl id id (fun _ => d) s i

/-- Only a kill draws, so without one a step carries the draw counter through. -/
theorem step_withDraws {s : State} (hk : s.kill = false) (d : Nat) :
    step (s.withDraws d) = mapNext (State.withDraws d) (step s) := by
  obtain ⟨-, hkill, -⟩ | ⟨hr, -, hp, hs⟩ | ⟨hr, -, hp, hc, hs⟩ | ⟨he, p, hf, hs⟩ | ⟨e, he, hs⟩ |
    ⟨hfin, hs⟩ := step_cases s
  · rw [hk] at hkill
    cases hkill
  · rw [hs, step_of_pcOutside (s := s.withDraws d) hr hk hp]
    rfl
  · rw [hs, step_of_cancel (s := s.withDraws d) hr hk hp hc]
    rfl
  · rw [hs, step_of_executing (s := s.withDraws d) he hf, exec_withDraws]
    cases exec p.instr s <;> rfl
  · rw [hs, step_of_faulted (s := s.withDraws d) he]
    rfl
  · rw [hs, step_of_final (s := s.withDraws d) hfin]
    rfl

theorem runSteps_withDraws {s : State} (hk : s.kill = false) (d n : Nat) :
    runSteps n (s.withDraws d) = (runSteps n s).withDraws d := by
  induction n generalizing s with
  | zero => rfl
  | succ n ih =>
    have carried := step_withDraws hk d
    cases hs : step s with
    | next t =>
      obtain ⟨-, -, hkill⟩ := step_frame hs
      rw [hs] at carried
      rw [runSteps_succ_of_next carried, runSteps_succ_of_next hs, ih (hkill.trans hk)]
    | fault e =>
      rw [hs] at carried
      simp [runSteps, hs, carried, mapNext]
    | refused r =>
      rw [hs] at carried
      simp [runSteps, hs, carried, mapNext]

/-- Two runs that differ in the draw counter alone have the same end, whatever steps each was allowed. -/
theorem runSteps_withDraws_of_ended {s : State} {d n k : Nat} (hk : s.kill = false)
    (hn : (runSteps n s).Ended) (hend : (runSteps k (s.withDraws d)).Ended) :
    runSteps k (s.withDraws d) = (runSteps n s).withDraws d := by
  rw [runSteps_withDraws hk] at hend ⊢
  rw [runSteps_eq_of_ended (n := k) (k := n) hend hn]

/-- A state that agrees with another on everything but the draw counter. -/
theorem State.eq_withDraws {s u : State} (hparams : u.params = s.params) (hprog : u.program = s.program)
    (hpc : u.pc = s.pc) (hregs : u.regs = s.regs) (hmem : u.mem = s.mem) (hstatus : u.status = s.status)
    (hcancel : u.cancel = s.cancel) (hkill : u.kill = s.kill) : u = s.withDraws u.draws := by
  cases u
  simp_all [State.withDraws]

/-- Settles O21: equal inputs leave only the draw counter to differ, which steps and runs carry through;
and the end of a run does not depend on the number of steps allowed. -/
theorem runsAreDeterministic : Obligations.RunsAreDeterministic := by
  constructor
  · intro s u hs hu hsk huk hparams hprog hpc hregs hmem hcancel t hst
    have agree : u = s.withDraws u.draws := State.eq_withDraws hparams hprog hpc hregs hmem
      (hu.trans hs.symm) hcancel (huk.trans hsk.symm)
    refine ⟨t.withDraws u.draws, ?_, rfl, rfl, rfl, rfl⟩
    rw [agree, step_withDraws hsk, hst]
    rfl
  · intro p prog initR initM d d' n n' hn hn'
    have sameEnd : runSteps n' (State.start p prog initR initM d') =
        (runSteps n (State.start p prog initR initM d)).withDraws d' :=
      runSteps_withDraws_of_ended (s := State.start p prog initR initM d) rfl (State.ended_of_halted hn)
        (State.ended_of_halted hn')
    rw [sameEnd]
    exact ⟨rfl, rfl, rfl⟩

end Sys2Proof.Machine
end

section
/-! PROOF. The next PC (spec/10_state.md R30): the six branch conditions as signed comparisons with 0, and
the explicit target of every instruction as the one its effect commits; O27 is assembled from them. -/

namespace Sys2Proof.Machine

/-! ### The branch conditions -/

theorem isEqZ_eq (v : Word) : isEqZ v = decide (v.toInt = 0) := by
  simp [isEqZ, ← BitVec.toInt_inj]

theorem isNeZ_eq (v : Word) : isNeZ v = decide (v.toInt ≠ 0) := by
  simp [isNeZ, ← BitVec.toInt_inj]

theorem isLtZ_eq (v : Word) : isLtZ v = decide (v.toInt < 0) := by
  simp [isLtZ, ltSigned]

theorem isGeZ_eq (v : Word) : isGeZ v = decide (0 ≤ v.toInt) := by
  simp [isGeZ, ltSigned, ← decide_not]

theorem isGtZ_eq (v : Word) : isGtZ v = decide (0 < v.toInt) := by
  simp [isGtZ, ltSigned]

theorem isLeZ_eq (v : Word) : isLeZ v = decide (v.toInt ≤ 0) := by
  simp [isLeZ, ltSigned, ← decide_not]

/-! ### The committed target -/

theorem State.commit_pc {s t : State} {e : Effect} (h : s.commit e = .next t) :
    t.pc = e.nextPc.getD (s.pc + 1) := by
  obtain ⟨_, _, _, _, hc⟩ | ⟨m, _, hc⟩ := s.commit_cases e <;> rw [hc] at h <;> cases h
  rfl

theorem State.writeReg_pc {s t : State} {r : RegIdx} {v : Word} (h : s.writeReg r v = .next t) :
    t.pc = s.pc + 1 := State.commit_pc h

theorem State.storeWord_pc {s t : State} {a v : Word} (h : s.storeWord a v = .next t) :
    t.pc = s.pc + 1 := State.commit_pc h

theorem State.jumpTo_pc {s t : State} {n : Word} (h : s.jumpTo n = .next t) : t.pc = n :=
  State.commit_pc h

theorem State.linkAndJump_pc {s t : State} {n : Word} (h : s.linkAndJump n = .next t) : t.pc = n :=
  State.commit_pc h

theorem State.branch_pc {s t : State} {taken : Bool} {n : Word} (h : s.branch taken n = .next t) :
    t.pc = (if taken then some n else none).getD (s.pc + 1) := State.commit_pc h

theorem State.loadReg_pc {s t : State} {r : RegIdx} {a : Word} (h : s.loadReg r a = .next t) :
    t.pc = s.pc + 1 := by
  obtain ⟨-, hl⟩ | ⟨-, hl⟩ := s.loadReg_cases r a <;> rw [hl] at h
  · cases h
  · exact State.writeReg_pc h

/-- The PC after an instruction. -/
theorem exec_pc {i : Instr} {s t : State} (h : exec i s = .next t) :
    t.pc = (explicitTarget i s).getD (s.pc + 1) := by
  cases i
  case lw => exact State.loadReg_pc h
  case sw => exact State.storeWord_pc h
  case beqz => simpa [explicitTarget, isEqZ_eq, State.branchTarget] using State.branch_pc h
  case bnez => simpa [explicitTarget, isNeZ_eq, State.branchTarget] using State.branch_pc h
  case bltz => simpa [explicitTarget, isLtZ_eq, State.branchTarget] using State.branch_pc h
  case bgez => simpa [explicitTarget, isGeZ_eq, State.branchTarget] using State.branch_pc h
  case bgtz => simpa [explicitTarget, isGtZ_eq, State.branchTarget] using State.branch_pc h
  case blez => simpa [explicitTarget, isLeZ_eq, State.branchTarget] using State.branch_pc h
  case jr | j => exact State.jumpTo_pc h
  case jalr | jal => exact State.linkAndJump_pc h
  all_goals exact State.writeReg_pc h

/-- Settles O27: the PC after an instruction is its explicit target or the next step. -/
theorem pcAdvancesUnlessSet : Obligations.PcAdvancesUnlessSet :=
  ⟨fun _ _ _ => exec_pc, State.start_pc⟩

/-! ### O9 -/

/-- Settles O9: each field of a started run is the one it was started with. -/
theorem startOfRunValues : Obligations.StartOfRunValues := fun p prog initR initM d =>
  ⟨State.start_pc p prog initR initM d, fun _ => rfl, fun _ => rfl,
   State.start_program p prog initR initM d, State.start_status p prog initR initM d,
   State.start_cancel p prog initR initM d⟩

end Sys2Proof.Machine
end

section
/-! PROOF. The program store and data memory (spec/20_memory.md R52, R57, R63): a run keeps its program, so
its fetch depends on the PC alone; an access follows `MEM_VALID`, and on a canonical memory writing the word
an address already holds changes nothing.  O13, O31 and O32 are assembled from them. -/

namespace Sys2Proof.Machine

/-! ### O13 -/

/-- A fetch reads the program and the PC alone. -/
theorem State.fetch_congr {s u : State} (hprog : u.program = s.program) (hpc : u.pc = s.pc) :
    u.fetch = s.fetch := by
  simp [State.fetch, State.pcInProgram, hprog, hpc]

theorem runSteps_program (n : Nat) (s : State) : (runSteps n s).program = s.program := by
  induction n generalizing s with
  | zero => rfl
  | succ n ih =>
    cases hs : step s with
    | next t =>
      obtain ⟨-, hprog, -⟩ := step_frame hs
      rw [runSteps_succ_of_next hs, ih, hprog]
    | fault e => simp [runSteps, hs]
    | refused r => simp [runSteps, hs]

/-- Settles O13: a step keeps program and parameters, and so a run and every fetch. -/
theorem programStoreIsImmutable : Obligations.ProgramStoreIsImmutable := by
  refine ⟨fun s t hst => ?_, fun s n => runSteps_program n s, fun s t u hst hprog hpc => ?_⟩
  · obtain ⟨hparams, hprog, -⟩ := step_frame hst
    exact ⟨hprog, hparams⟩
  · obtain ⟨-, hstep, -⟩ := step_frame hst
    exact State.fetch_congr (hprog.trans hstep) hpc

/-! ### O31 -/

/-- On a canonical memory, writing the word an address already holds changes nothing, even where that is
the unlisted word. -/
theorem Memory.write_read_above {lo : Option Nat} {m : Memory} (hm : Memory.wfAbove lo m = true)
    (a : Nat) : m.write a (m.read a) = m := by
  induction m generalizing lo with
  | nil => simp [Memory.write, Memory.read]
  | cons c m ih =>
    obtain ⟨k, w⟩ := c
    obtain ⟨-, -, hw, htail⟩ := (Memory.wfAbove_cons lo k w m).mp hm
    obtain below | rfl | above := Nat.lt_trichotomy a k
    · have unlistedThere : Memory.read m a = Memory.unlisted := Memory.read_of_wfAbove htail (Nat.le_of_lt below)
      simp [Memory.read, Memory.write, below, Nat.ne_of_lt below, unlistedThere]
    · simp [Memory.read, Memory.write, hw]
    · simp [Memory.read, Memory.write, Nat.not_lt_of_gt above, Nat.ne_of_gt above, ih htail]

theorem Memory.write_write_same {m : Memory} (hm : m.wf = true) {a : Nat} (ha : a < 2 ^ 32) (v : Word) :
    (m.write a v).write a v = m.write a v := by
  have rewritten := Memory.write_read_above (Memory.wf_write hm ha v) a
  rwa [Memory.read_write_same hm] at rewritten

/-- A read at another address does not see a write. -/
theorem State.memRead_write_ne {s : State} {a b : Word} (v : Word) (h : b ≠ a) :
    State.memRead { s with mem := s.mem.write a.toNat v } b = s.memRead b := by
  have hne : b.toNat ≠ a.toNat := fun e => h (BitVec.eq_of_toNat_eq e)
  simp only [State.memRead, Memory.read_write_ne v hne]

/-- A write that succeeds was at an address that exists, and gives the memory with the word stored. -/
theorem State.memWrite_eq_ok {s : State} {a v : Word} {m : Memory} (h : s.memWrite a v = .ok m) :
    s.params.addrValid a = true ∧ m = s.mem.write a.toNat v := by
  cases hv : s.params.addrValid a with
  | true =>
    rw [State.memWrite_valid v hv] at h
    cases h
    exact ⟨rfl, rfl⟩
  | false =>
    rw [State.memWrite_invalid v hv] at h
    cases h

/-- Settles O31: the word written is read back, the others are not touched, and writing it again is
writing the word the address holds. -/
theorem readsReturnTheLastWrite : Obligations.ReadsReturnTheLastWrite := by
  intro s a v m hm hwrite
  obtain ⟨hv, rfl⟩ := State.memWrite_eq_ok hwrite
  refine ⟨?_, fun b hb => State.memRead_write_ne v hb, ?_⟩
  · rw [State.memRead_valid (s := { s with mem := s.mem.write a.toNat v }) hv, Memory.read_write_same hm]
  · rw [State.memWrite_valid (s := { s with mem := s.mem.write a.toNat v }) v hv,
      Memory.write_write_same hm a.isLt]

/-! ### O32 -/

/-- The default `MEM_VALID` (R7, R52). -/
theorem Params.addrValid_default_iff (words : Nat) (a : Word) :
    (Params.default words).addrValid a = true ↔ 0 ≤ a.toInt ∧ a.toInt < words := by
  simp [Params.addrValid, Params.default, Params.memBelow, AddrRange.holds]

/-- Settles O32: each access by the two values of `MEM_VALID`, and the default by its one range. -/
theorem accessesFollowMemValid : Obligations.AccessesFollowMemValid := by
  refine ⟨fun s a v => ⟨fun hv => ?_, fun hv => ?_⟩, Params.addrValid_default_iff⟩
  · exact ⟨State.memRead_invalid hv, State.memWrite_invalid v hv⟩
  · exact ⟨State.memRead_valid hv, s.mem.write a.toNat v, State.memWrite_valid v hv,
      fun hm => Memory.read_write_same hm a.toNat v, fun b hb => Memory.read_write_ne v hb⟩

end Sys2Proof.Machine
end

section
/-! PROOF. The codec by format (spec/30_encoding.md R71 to R76, R84 to R92): `build`, `encode` and `toRecord`
of all 32 mnemonics are one function each of the mnemonic's format and the fields, so decoding, encoding and
the operand range have one lemma per direction.  O2, O3, O5, O6 and O8 are assembled from them. -/

namespace Sys2Proof

/-! ### Instructions by format -/

/-- The imm11 operand (R86). -/
def ext11 (m : Mnemonic) (v : BitVec 11) : Word :=
  if m = .set ∨ m = .sset then zext11 v else sext11 v

/-- The word of a mnemonic over its format's fields (R91). -/
def Mnemonic.word (om : OpMap) (m : Mnemonic) (f : Fields) : InstrWord :=
  match m.format with
  | .r => wordR om m f.rs f.rt f.rd
  | .i => wordI om m f.rs f.rt f.imm5
  | .b => wordB om m f.rs f.imm8
  | .j => wordJ om m f.imm11

/-- The record of a mnemonic over its format's fields (R84 to R86, R89). -/
def Mnemonic.record (sg : Imm5Signed) (line step : Nat) (m : Mnemonic) (f : Fields) : Record :=
  match m.format with
  | .r => ⟨m, line, step, f.rs, f.rt, f.rd, 0, none⟩
  | .i => ⟨m, line, step, f.rs, f.rt, 0, (ext5 sg m f.imm5).toInt, none⟩
  | .b => ⟨m, line, step, f.rs, 0, 0, (sext8 f.imm8).toInt, none⟩
  | .j => ⟨m, line, step, 0, 0, 0, (ext11 m f.imm11).toInt, none⟩

/-- The fields of a resolved record, its immediate reduced to each width (R91 `v mod 2^n`). -/
def Record.fields (r : Record) : Fields :=
  ⟨r.rs, r.rt, r.rd, 0, BitVec.ofInt 5 r.imm, BitVec.ofInt 8 r.imm, BitVec.ofInt 11 r.imm⟩

/-- The two agree on the operands of the format (R71 to R74). -/
def Fields.AgreeOn (fm : Format) (f g : Fields) : Prop :=
  match fm with
  | .r => f.rs = g.rs ∧ f.rt = g.rt ∧ f.rd = g.rd
  | .i => f.rs = g.rs ∧ f.rt = g.rt ∧ f.imm5 = g.imm5
  | .b => f.rs = g.rs ∧ f.imm8 = g.imm8
  | .j => f.imm11 = g.imm11

@[simp] theorem Mnemonic.mnemonic_build (m : Mnemonic) (f : Fields) : (m.build f).mnemonic = m := by
  cases m <;> rfl

theorem Mnemonic.encode_build (om : OpMap) (m : Mnemonic) (f : Fields) :
    encode om (m.build f) = m.word om f := by cases m <;> rfl

theorem Mnemonic.toRecord_build (sg : Imm5Signed) (line step : Nat) (m : Mnemonic) (f : Fields) :
    (m.build f).toRecord sg line step = m.record sg line step f := by cases m <;> rfl

theorem Record.toInstr_eq_build (r : Record) : r.toInstr = r.mn.build r.fields := by
  obtain ⟨m, line, step, rs, rt, rd, imm, jumpto⟩ := r
  cases m <;> rfl

/-- An instruction is built from its format's operands alone. -/
theorem Mnemonic.build_congr {m : Mnemonic} {f g : Fields} (h : Fields.AgreeOn m.format f g) :
    m.build f = m.build g := by
  cases m
  case and | or | xor | add | sub | slt | sltu =>
    obtain ⟨hrs, hrt, hrd⟩ := h
    simp only [Mnemonic.build, hrs, hrt, hrd]
  case beqz | bnez | bltz | bgez | bgtz | blez | jr | jalr =>
    obtain ⟨hrs, himm⟩ := h
    simp only [Mnemonic.build, hrs, himm]
  case j | jal | set | sset =>
    have himm : f.imm11 = g.imm11 := h
    simp only [Mnemonic.build, himm]
  all_goals
    obtain ⟨hrs, hrt, himm⟩ := h
    simp only [Mnemonic.build, hrs, hrt, himm]

/-! ### The key of a word -/

/-- The mnemonic has the word's opcode and, in R-format, its func (R76). -/
def OpMap.Names (om : OpMap) (m : Mnemonic) (w : InstrWord) : Prop :=
  om.opcode m = opcodeOf w ∧ (m.format = .r → om.func m = (Fields.ofWord w).func)

theorem OpMap.names_word (om : OpMap) (m : Mnemonic) (f : Fields) : om.Names m (m.word om f) := by
  unfold OpMap.Names Mnemonic.word
  cases hm : m.format <;> simp

theorem Fields.agreeOn_ofWord_word (om : OpMap) (m : Mnemonic) (f : Fields) :
    Fields.AgreeOn m.format (Fields.ofWord (m.word om f)) f := by
  unfold Mnemonic.word
  cases hm : m.format <;> simp [Fields.AgreeOn]

/-- A named word is its mnemonic's over the fields cut from it: no bit is left over (R74). -/
theorem OpMap.Names.word_ofWord {om : OpMap} {m : Mnemonic} {w : InstrWord} (h : om.Names m w) :
    m.word om (Fields.ofWord w) = w := by
  obtain ⟨hop, hfunc⟩ := h
  unfold Mnemonic.word
  cases hm : m.format
  case r => simpa only [wordR, hop, hfunc hm] using wordR_fields w
  case i => simpa only [wordI, hop] using wordI_fields w
  case b => simpa only [wordB, hop] using wordB_fields w
  case j => simpa only [wordJ, hop] using wordJ_fields w

/-- What a word decodes to, under any map, is built from its own fields by a mnemonic that names it and
whose format its opcode selects. -/
theorem exists_names_of_decodeWord {om : OpMap} {w : InstrWord} {i : Instr} (h : decodeWord om w = some i) :
    ∃ m, om.Names m w ∧ fmt (opcodeOf w) = some m.format ∧ i = m.build (Fields.ofWord w) := by
  unfold decodeWord dec at h
  cases hfmt : fmt (opcodeOf w) with
  | none => simp [hfmt] at h
  | some fm =>
    simp only [hfmt, Option.map_map, Option.map_eq_some_iff, Function.comp] at h
    obtain ⟨m, hfind, rfl⟩ := h
    obtain ⟨rfl, hop, hfunc⟩ := OpMap.find_spec hfind
    exact ⟨m, ⟨hop, hfunc⟩, rfl, rfl⟩

/-- Under a consistent map a word decodes by the mnemonic that names it. -/
theorem decodeWord_of_names {om : OpMap} (hom : om.Consistent) {m : Mnemonic} {w : InstrWord}
    (h : om.Names m w) : decodeWord om w = some (m.build (Fields.ofWord w)) := by
  obtain ⟨hop, hfunc⟩ := h
  have hfmt : fmt (opcodeOf w) = some m.format := hop ▸ hom.1 m
  have hfind := OpMap.find_eq hom rfl hop hfunc
  simp [decodeWord, dec, hfmt, hfind]

theorem decodeWord_eq_none_iff {om : OpMap} (hom : om.Consistent) {w : InstrWord} :
    decodeWord om w = none ↔ ∀ m, ¬ om.Names m w := by
  constructor
  · intro h m named
    rw [decodeWord_of_names hom named] at h
    cases h
  · intro h
    cases hd : decodeWord om w with
    | none => rfl
    | some i =>
      obtain ⟨m, named, -, -⟩ := exists_names_of_decodeWord hd
      exact absurd named (h m)

/-! ### Decoding and encoding invert each other -/

theorem encode_of_decodeWord {om : OpMap} {w : InstrWord} {i : Instr} (h : decodeWord om w = some i) :
    encode om i = w := by
  obtain ⟨m, named, -, rfl⟩ := exists_names_of_decodeWord h
  rw [Mnemonic.encode_build, named.word_ofWord]

theorem decodeWord_encode_build {om : OpMap} (hom : om.Consistent) (m : Mnemonic) (f : Fields) :
    decodeWord om (encode om (m.build f)) = some (m.build f) := by
  rw [Mnemonic.encode_build, decodeWord_of_names hom (om.names_word m f),
    Mnemonic.build_congr (Fields.agreeOn_ofWord_word om m f)]

theorem decodeWord_encode_toInstr {om : OpMap} (hom : om.Consistent) (r : Record) :
    decodeWord om (encode om r.toInstr) = some r.toInstr := by
  rw [Record.toInstr_eq_build, decodeWord_encode_build hom]

theorem decodeWord_of_decodeRecord {om : OpMap} {w : InstrWord} {line step : Nat} {p : Loaded}
    (h : decodeRecord om w line step = .ok p) : decodeWord om w = some p.instr := by
  unfold decodeRecord at h
  split at h
  case h_1 i hi =>
    cases h
    exact hi
  case h_2 => cases h

theorem decodeRecord_of_decodeWord {om : OpMap} {w : InstrWord} {i : Instr} (h : decodeWord om w = some i)
    (line step : Nat) : decodeRecord om w line step = .ok ⟨i, line, step⟩ := by
  simp [decodeRecord, h]

theorem decodeRecord_eq_error_iff {om : OpMap} {w : InstrWord} {line step : Nat} :
    decodeRecord om w line step = .error (.invalidInstructionKind w line step) ↔ decodeWord om w = none := by
  unfold decodeRecord
  cases decodeWord om w <;> simp

/-! ### Operand values: in range exactly where a field has them -/

@[simp] theorem ofInt_ext5_toInt (sg : Imm5Signed) (m : Mnemonic) (v : BitVec 5) :
    BitVec.ofInt 5 (ext5 sg m v).toInt = v := by
  unfold ext5
  split <;> simp

@[simp] theorem ofInt_ext11_toInt (m : Mnemonic) (v : BitVec 11) :
    BitVec.ofInt 11 (ext11 m v).toInt = v := by
  unfold ext11
  split <;> simp

section
variable {m : Mnemonic} (sg : Imm5Signed) (v : Int)

theorem immInRange_r (hm : m.format = .r) : immInRange sg m v = true := by
  simp [immInRange, immRange, hm]

theorem immInRange_i_iff (hm : m.format = .i) :
    immInRange sg m v = true ↔ ∃ x, (ext5 sg m x).toInt = v := by
  unfold ext5
  cases hs : sg.signed m
  · simpa [immInRange, immRange, hm, hs] using (exists_zext5_toInt_eq_iff v).symm
  · simpa [immInRange, immRange, hm, hs] using (exists_sext5_toInt_eq_iff v).symm

theorem immRange_b (hm : m.format = .b) : immRange sg m = some (-128, 127) := by
  simp [immRange, hm]

theorem immInRange_b_iff (hm : m.format = .b) :
    immInRange sg m v = true ↔ ∃ x, (sext8 x).toInt = v := by
  simpa [immInRange, immRange_b sg hm] using (exists_sext8_toInt_eq_iff v).symm

theorem immRange_j (hm : m.format = .j) :
    immRange sg m = if m = .set ∨ m = .sset then some (0, 2047) else some (-1024, 1023) := by
  cases m
  case j | jal | set | sset => rfl
  all_goals cases hm

theorem immInRange_j_iff (hm : m.format = .j) :
    immInRange sg m v = true ↔ ∃ x, (ext11 m x).toInt = v := by
  unfold ext11
  by_cases hset : m = .set ∨ m = .sset
  · simpa [immInRange, immRange_j sg hm, hset] using (exists_zext11_toInt_eq_iff v).symm
  · simpa [immInRange, immRange_j sg hm, hset] using (exists_sext11_toInt_eq_iff v).symm

end

/-! ### Records and instructions invert each other -/

theorem Mnemonic.immInRange_record (sg : Imm5Signed) (line step : Nat) (m : Mnemonic) (f : Fields) :
    immInRange sg m (m.record sg line step f).imm = true := by
  unfold Mnemonic.record
  cases hm : m.format
  case r => exact immInRange_r sg _ hm
  case i => exact (immInRange_i_iff sg _ hm).2 ⟨_, rfl⟩
  case b => exact (immInRange_b_iff sg _ hm).2 ⟨_, rfl⟩
  case j => exact (immInRange_j_iff sg _ hm).2 ⟨_, rfl⟩

@[simp] theorem Mnemonic.record_mn (sg : Imm5Signed) (line step : Nat) (m : Mnemonic) (f : Fields) :
    (m.record sg line step f).mn = m := by
  unfold Mnemonic.record
  cases m.format <;> rfl

@[simp] theorem Mnemonic.record_jumpto (sg : Imm5Signed) (line step : Nat) (m : Mnemonic) (f : Fields) :
    (m.record sg line step f).jumpto = none := by
  unfold Mnemonic.record
  cases m.format <;> rfl

theorem Mnemonic.toInstr_record (sg : Imm5Signed) (line step : Nat) (m : Mnemonic) (f : Fields) :
    (m.record sg line step f).toInstr = m.build f := by
  rw [Record.toInstr_eq_build, Mnemonic.record_mn]
  apply Mnemonic.build_congr
  unfold Mnemonic.record
  cases m.format <;> simp [Fields.AgreeOn, Record.fields]

/-- A well-formed record holds its format's fields, an operand value of its immediate, and no more. -/
theorem Record.wf_iff {sg : Imm5Signed} {r : Record} :
    r.wf sg = true ↔ r.jumpto = none ∧ immInRange sg r.mn r.imm = true ∧ r.fieldsOk = true := by
  simp [Record.wf, Record.immOk, and_assoc]

theorem Record.record_fields {sg : Imm5Signed} {r : Record} (h : r.wf sg = true) :
    r.mn.record sg r.lineNo r.stepNo r.fields = r := by
  obtain ⟨hjump, hrange, hfields⟩ := Record.wf_iff.1 h
  obtain ⟨m, line, step, rs, rt, rd, imm, jumpto⟩ := r
  subst hjump
  unfold Mnemonic.record
  cases hm : m.format <;> simp [Record.fieldsOk, hm] at hfields
  case r => simp [Record.fields, hfields]
  case i =>
    obtain ⟨x, rfl⟩ := (immInRange_i_iff sg imm hm).1 hrange
    simp [Record.fields, hfields]
  case b =>
    obtain ⟨x, rfl⟩ := (immInRange_b_iff sg imm hm).1 hrange
    simp [Record.fields, hfields]
  case j =>
    obtain ⟨x, rfl⟩ := (immInRange_j_iff sg imm hm).1 hrange
    simp [Record.fields, hfields]

theorem Record.toRecord_toInstr {sg : Imm5Signed} {r : Record} (h : r.wf sg = true) :
    r.toInstr.toRecord sg r.lineNo r.stepNo = r := by
  rw [Record.toInstr_eq_build, Mnemonic.toRecord_build, Record.record_fields h]

/-! ### The encoder, case by case -/

theorem encodeRecord_of_inRange (om : OpMap) {sg : Imm5Signed} {r : Record} (hj : r.jumpto = none)
    (hr : immInRange sg r.mn r.imm = true) : encodeRecord om sg r = .ok (encode om r.toInstr) := by
  simp [encodeRecord, hj, hr]

theorem encodeRecord_of_outOfRange (om : OpMap) {sg : Imm5Signed} {r : Record} (hj : r.jumpto = none)
    (hr : immInRange sg r.mn r.imm = false) : encodeRecord om sg r = .error (.rangeError r.lineNo) := by
  simp [encodeRecord, hj, hr]

theorem encodeRecord_of_label (om : OpMap) (sg : Imm5Signed) {r : Record} (hj : r.jumpto ≠ none) :
    encodeRecord om sg r = .error (.unresolvedTarget r.lineNo) := by
  simp [encodeRecord, Option.isSome_iff_ne_none, hj]

theorem encodeRecord_eq_ok {om : OpMap} {sg : Imm5Signed} {r : Record} {w : InstrWord}
    (h : encodeRecord om sg r = .ok w) : w = encode om r.toInstr := by
  unfold encodeRecord at h
  split at h
  · cases h
  · split at h <;> cases h
    rfl

theorem encodeRecord_toRecord_of_decodeWord {om : OpMap} {w : InstrWord} {i : Instr}
    (h : decodeWord om w = some i) (sg : Imm5Signed) (line step : Nat) :
    encodeRecord om sg (i.toRecord sg line step) = .ok w := by
  have encoded : encode om i = w := encode_of_decodeWord h
  obtain ⟨m, -, -, rfl⟩ := exists_names_of_decodeWord h
  have inRange := m.immInRange_record sg line step (Fields.ofWord w)
  rw [Mnemonic.toRecord_build, encodeRecord_of_inRange om (by simp) (by simpa using inRange),
    Mnemonic.toInstr_record, encoded]

/-- Settles O2: a decoded record is in range and is its instruction again; a well-formed record is the
record of its instruction, which its word decodes to. -/
theorem recordsAndWordsRoundTrip : Obligations.RecordsAndWordsRoundTrip := by
  intro om sg hom
  constructor
  · intro w line step p hp
    exact encodeRecord_toRecord_of_decodeWord (decodeWord_of_decodeRecord hp) sg line step
  · intro r hwf
    obtain ⟨hjump, hrange, -⟩ := Record.wf_iff.1 hwf
    exact ⟨_, _, encodeRecord_of_inRange om hjump hrange,
      decodeRecord_of_decodeWord (decodeWord_encode_toInstr hom r) r.lineNo r.stepNo,
      Record.toRecord_toInstr hwf⟩

/-! ### O3 -/

theorem opcodeOf_toNat (w : InstrWord) : (opcodeOf w).toNat = w.toNat / 2048 := by
  have bound := w.isLt
  simp only [opcodeOf, BitVec.extractLsb'_toNat, Nat.shiftRight_eq_div_pow]
  omega

theorem func_ofWord_toNat (w : InstrWord) : (Fields.ofWord w).func.toNat = w.toNat % 4 := by
  simp [Fields.ofWord]

/-- The keys of R81: the opcodes and the one (opcode, func) that the reference map leaves free. -/
def UnusedKey (op : BitVec 5) (fn : BitVec 2) : Prop :=
  op ∈ [2, 3, 17, 18, 19] ∨ (op = 0 ∧ fn = 1)

theorem illegalWord_iff_unusedKey (w : InstrWord) :
    Machine.illegalWord w ↔ UnusedKey (opcodeOf w) (Fields.ofWord w).func := by
  simp [Machine.illegalWord, UnusedKey, ← BitVec.toNat_inj, opcodeOf_toNat, func_ofWord_toNat, or_assoc]

theorem unusedKey_iff : ∀ (op : BitVec 5) (fn : BitVec 2), UnusedKey op fn ↔
    ∀ m ∈ Mnemonic.all, ¬ (referenceOpcode m = op ∧ (m.format = .r → referenceFunc m = fn)) := by
  unfold UnusedKey
  decide

theorem illegalWord_iff (w : InstrWord) :
    Machine.illegalWord w ↔ decodeWord OpMap.reference w = none := by
  rw [decodeWord_eq_none_iff OpMap.reference_consistent, illegalWord_iff_unusedKey, unusedKey_iff]
  exact ⟨fun h m => h m m.mem_all, fun h m _ => h m⟩

/-- Settles O3: a word fails to decode exactly where no mnemonic names it, and what it decodes to has it
as its one word. -/
theorem illegalWordsAreExactlyThese : Obligations.IllegalWordsAreExactlyThese := by
  refine ⟨fun om w line step hom => decodeRecord_eq_error_iff.trans (decodeWord_eq_none_iff hom),
    fun w line step => ⟨fun illegal => ?_, fun legal => ?_⟩⟩
  · exact decodeRecord_eq_error_iff.2 ((illegalWord_iff w).1 illegal)
  · rw [illegalWord_iff, ← ne_eq, Option.ne_none_iff_exists'] at legal
    obtain ⟨i, hi⟩ := legal
    have encoded : encode OpMap.reference i = w := encode_of_decodeWord hi
    exact ⟨i, decodeRecord_of_decodeWord hi line step, ⟨hi, encoded⟩,
      fun v hv => hv.2.symm.trans encoded⟩

/-! ### O5 -/

/-- Settles O5: the format by its 32 opcodes, and a decoded instruction's by the mnemonic it was built by. -/
theorem formatFollowsTheOpcode : Obligations.FormatFollowsTheOpcode := by
  refine ⟨by decide, fun om w i h => ?_⟩
  obtain ⟨m, -, hfmt, rfl⟩ := exists_names_of_decodeWord h
  rw [hfmt, Mnemonic.mnemonic_build]

/-! ### O6 -/

/-- The number of a joined bit vector is the sum of its placed parts. -/
theorem toNat_append_eq_add {n k : Nat} (x : BitVec n) (y : BitVec k) :
    (x ++ y).toNat = x.toNat * 2 ^ k + y.toNat := by
  rw [BitVec.toNat_append, ← Nat.shiftLeft_add_eq_or_of_lt y.isLt, Nat.shiftLeft_eq]

theorem wordR_toNat (om : OpMap) (m : Mnemonic) (rs rt rd : RegIdx) :
    (wordR om m rs rt rd).toNat = (om.opcode m).toNat * 2 ^ 11 +
      (rs.toNat * 2 ^ 8 + rt.toNat * 2 ^ 5 + rd.toNat * 2 ^ 2 + (om.func m).toNat) := by
  rw [← patternR_eq rfl rfl, Machine.patternR]
  simp only [toNat_append_eq_add]
  omega

theorem wordI_toNat (om : OpMap) (m : Mnemonic) (rs rt : RegIdx) (imm5 : BitVec 5) :
    (wordI om m rs rt imm5).toNat = (om.opcode m).toNat * 2 ^ 11 +
      (rs.toNat * 2 ^ 8 + rt.toNat * 2 ^ 5 + imm5.toNat) := by
  rw [← patternI_eq rfl, Machine.patternI]
  simp only [toNat_append_eq_add]
  omega

theorem wordB_toNat (om : OpMap) (m : Mnemonic) (rs : RegIdx) (imm8 : BitVec 8) :
    (wordB om m rs imm8).toNat = (om.opcode m).toNat * 2 ^ 11 + (rs.toNat * 2 ^ 8 + imm8.toNat) := by
  rw [← patternB_eq rfl, Machine.patternB]
  simp only [toNat_append_eq_add]
  omega

theorem wordJ_toNat (om : OpMap) (m : Mnemonic) (imm11 : BitVec 11) :
    (wordJ om m imm11).toNat = (om.opcode m).toNat * 2 ^ 11 + imm11.toNat := by
  rw [← patternJ_eq rfl, Machine.patternJ]
  simp only [toNat_append_eq_add]

/-- Settles O6: the sum of the placed fields by the format, the two refusals as the encoder's cases. -/
theorem encoderPlacesFieldsAndChecksRange : Obligations.EncoderPlacesFieldsAndChecksRange := by
  intro om sg r
  refine ⟨fun hj hr => ⟨_, encodeRecord_of_inRange om hj hr, ?_⟩, encodeRecord_of_outOfRange om,
    fun hj w hw => ?_, fun w hom hw => ?_⟩
  · rw [Record.toInstr_eq_build, Mnemonic.encode_build, Mnemonic.word]
    cases r.mn.format
    case r => exact wordR_toNat om r.mn r.rs r.rt r.rd
    case i => simp [wordI_toNat, Record.fields, BitVec.toNat_ofInt]
    case b => simp [wordB_toNat, Record.fields, BitVec.toNat_ofInt]
    case j => simp [wordJ_toNat, Record.fields, BitVec.toNat_ofInt]
  · rw [encodeRecord_of_label om sg hj] at hw
    cases hw
  · rw [encodeRecord_eq_ok hw, decodeWord_encode_toInstr hom]

/-! ### O8 -/

/-- Settles O8: the tables entry by entry, and the operand values by the record of each format. -/
theorem immediateValuesAndRanges : Obligations.ImmediateValuesAndRanges := by
  refine ⟨fun _ _ _ => rfl, fun sg m hm => ?_, by decide, by decide, fun sg m f line st => ?_⟩
  · fin_cases hm <;> exact ⟨rfl, rfl⟩
  · rw [Mnemonic.toRecord_build, Mnemonic.record]
    refine ⟨fun hm => by rw [hm], fun hm => ⟨by rw [hm], immRange_b sg hm⟩, ?_, ?_⟩ <;>
      rintro (rfl | rfl) <;> exact ⟨rfl, rfl⟩

end Sys2Proof
end

section
/-! PROOF. The loader (spec/30_encoding.md R111): a stream loads exactly as its lines do, and a line's value
is that of its digits.  O48 is assembled from these. -/

namespace Sys2Proof.Asm

/-! ### The stream -/

section
variable {om : OpMap} {k : Nat} {t : Text} {ts : List Text}

theorem loadFrom_cons_eq_ok_iff {p : Loaded} {ps : List Loaded} :
    loadFrom om k (t :: ts) = .ok (p :: ps) ↔
      loadLine om k t = .ok p ∧ loadFrom om (k + 1) ts = .ok ps := by
  rw [loadFrom]
  cases loadLine om k t <;> cases loadFrom om (k + 1) ts <;> simp [bind, Except.bind, pure, Except.pure]

theorem loadFrom_cons_ne_ok_nil : loadFrom om k (t :: ts) ≠ .ok [] := by
  rw [loadFrom]
  cases loadLine om k t <;> cases loadFrom om (k + 1) ts <;> simp [bind, Except.bind, pure, Except.pure]

theorem loadFrom_cons_eq_error_iff {f : Failure} :
    loadFrom om k (t :: ts) = .error f ↔ loadLine om k t = .error f ∨
      (∃ p, loadLine om k t = .ok p) ∧ loadFrom om (k + 1) ts = .error f := by
  rw [loadFrom]
  cases loadLine om k t <;> cases loadFrom om (k + 1) ts <;> simp [bind, Except.bind, pure, Except.pure]

end

/-- The stream loads, from line `k` on, exactly where every line does. -/
theorem loadFrom_eq_ok_iff (om : OpMap) (k : Nat) (ts : List Text) (prog : List Loaded) :
    loadFrom om k ts = .ok prog ↔ prog.length = ts.length ∧
      ∀ j t p, ts[j]? = some t → prog[j]? = some p → loadLine om (k + j) t = .ok p := by
  induction ts generalizing k prog with
  | nil => cases prog <;> simp [loadFrom]
  | cons u us ih =>
    have shift (j : Nat) : k + 1 + j = k + (j + 1) := Nat.add_right_comm k 1 j
    cases prog with
    | nil => simp [loadFrom_cons_ne_ok_nil]
    | cons q qs =>
      simp only [loadFrom_cons_eq_ok_iff, ih, shift, List.length_cons, Nat.add_right_cancel_iff]
      constructor
      · rintro ⟨first, sameLength, rest⟩
        refine ⟨sameLength, fun j t p ht hp => ?_⟩
        cases j with
        | zero =>
          cases ht
          cases hp
          exact first
        | succ j => exact rest j t p ht hp
      · rintro ⟨sameLength, all⟩
        exact ⟨all 0 u q rfl rfl, sameLength, fun j => all (j + 1)⟩

/-- The stream fails, from line `k` on, exactly with the failure of its first bad line. -/
theorem loadFrom_eq_error_iff (om : OpMap) (k : Nat) (ts : List Text) (f : Failure) :
    loadFrom om k ts = .error f ↔ ∃ j t, ts[j]? = some t ∧ loadLine om (k + j) t = .error f ∧
      ∀ i u, i < j → ts[i]? = some u → ∃ p, loadLine om (k + i) u = .ok p := by
  induction ts generalizing k with
  | nil => simp [loadFrom]
  | cons u us ih =>
    have shift (j : Nat) : k + 1 + j = k + (j + 1) := Nat.add_right_comm k 1 j
    simp only [loadFrom_cons_eq_error_iff, ih, shift]
    constructor
    · rintro (bad | ⟨good, j, t, ht, bad, before⟩)
      · exact ⟨0, u, rfl, bad, fun i v hi => absurd hi (Nat.not_lt_zero i)⟩
      · refine ⟨j + 1, t, ht, bad, fun i v hi hv => ?_⟩
        cases i with
        | zero =>
          cases hv
          exact good
        | succ i => exact before i v (Nat.lt_of_succ_lt_succ hi) hv
    · rintro ⟨j, t, ht, bad, before⟩
      cases j with
      | zero =>
        cases ht
        exact Or.inl bad
      | succ j =>
        exact Or.inr ⟨before 0 u (Nat.succ_pos j) rfl, j, t, ht, bad,
          fun i v hi => before (i + 1) v (Nat.succ_lt_succ hi)⟩

/-! ### Digits -/

/-- The hex digits in their order, letters in upper case. -/
def upperDigits : Text :=
  ['0', '1', '2', '3', '4', '5', '6', '7', '8', '9', 'A', 'B', 'C', 'D', 'E', 'F']

/-- The hex digits in their order, letters in lower case. -/
def lowerDigits : Text :=
  ['0', '1', '2', '3', '4', '5', '6', '7', '8', '9', 'a', 'b', 'c', 'd', 'e', 'f']

theorem toList_upperDigits : "0123456789ABCDEF".toList = upperDigits := rfl

theorem toList_lowerDigits : "0123456789abcdef".toList = lowerDigits := rfl

/-- The three runs of characters that are digits. -/
theorem hexDigitValue_run {c : Char} {n : Nat} (h : hexDigitValue c = some n) :
    (n < 10 ∧ c.toNat = 48 + n) ∨ (10 ≤ n ∧ n < 16 ∧ (c.toNat = 55 + n ∨ c.toNat = 87 + n)) := by
  simp only [hexDigitValue, isDigit, Bool.and_eq_true, decide_eq_true_eq] at h
  split at h
  · cases h
    omega
  · split at h
    · cases h
      omega
    · split at h <;> cases h
      omega

/-- The numerals stand at their values' places. -/
theorem getElem?_of_numeral : ∀ n < 10, upperDigits[n]? = some (Char.ofNat (48 + n)) := by
  decide

/-- The letters of either case stand at their values' places. -/
theorem getElem?_of_letter {n : Nat} (hge : 10 ≤ n) (hlt : n < 16) :
    upperDigits[n]? = some (Char.ofNat (55 + n)) ∧ lowerDigits[n]? = some (Char.ofNat (87 + n)) := by
  interval_cases n <;> exact ⟨rfl, rfl⟩

theorem hexDigitValue_of_getElem? {n : Nat} {c : Char}
    (h : upperDigits[n]? = some c ∨ lowerDigits[n]? = some c) : hexDigitValue c = some n := by
  have hlt : n < 16 := by
    obtain h | h := h <;> exact (List.getElem?_eq_some_iff.1 h).1
  interval_cases n <;> obtain h | h := h <;> cases h <;> decide

/-- A digit's value is its place. -/
theorem hexDigitValue_eq_some_iff (c : Char) (n : Nat) :
    hexDigitValue c = some n ↔ upperDigits[n]? = some c ∨ lowerDigits[n]? = some c := by
  constructor
  · intro h
    rw [← Char.ofNat_toNat c]
    obtain ⟨hn, hc⟩ | ⟨hge, hlt, hc | hc⟩ := hexDigitValue_run h <;> rw [hc]
    · exact Or.inl (getElem?_of_numeral n hn)
    · exact Or.inl (getElem?_of_letter hge hlt).1
    · exact Or.inr (getElem?_of_letter hge hlt).2
  · exact hexDigitValue_of_getElem?

theorem hexDigitValue_ne_none_iff (c : Char) :
    hexDigitValue c ≠ none ↔ c ∈ upperDigits ∨ c ∈ lowerDigits := by
  rw [Option.ne_none_iff_exists', List.mem_iff_getElem?, List.mem_iff_getElem?, ← exists_or]
  exact exists_congr (hexDigitValue_eq_some_iff c)

/-- The digits of either case in one list. -/
theorem mem_digits_iff (c : Char) :
    c ∈ "0123456789ABCDEFabcdef".toList ↔ c ∈ upperDigits ∨ c ∈ lowerDigits := by
  have joined : "0123456789ABCDEFabcdef".toList = upperDigits ++ lowerDigits.drop 10 := rfl
  have numerals : lowerDigits.take 10 = upperDigits.take 10 := rfl
  rw [joined, List.mem_append]
  constructor
  · exact Or.imp_right List.mem_of_mem_drop
  · rintro (upper | lower)
    · exact Or.inl upper
    · rw [← List.take_append_drop 10 lowerDigits, numerals, List.mem_append] at lower
      exact lower.imp_left List.mem_of_mem_take

/-! ### Tokens -/

theorem hexValue_append (t : Text) (c : Char) :
    hexValue (t ++ [c]) = (hexValue t).bind fun n => (hexDigitValue c).map fun d => 16 * n + d := by
  simp [hexValue]

theorem hexValue_singleton {c : Char} {d : Nat} (h : hexDigitValue c = some d) :
    hexValue [c] = some d := by
  simp [hexValue, h]

theorem hexValue_eq_none_of_mem {t : Text} {c : Char} (hc : c ∈ t) (h : hexDigitValue c = none) :
    hexValue t = none := by
  induction t using List.reverseRecOn with
  | nil => cases hc
  | append_singleton t d ih =>
    rw [hexValue_append]
    obtain hmem | hlast := List.mem_append.1 hc
    · rw [ih hmem, Option.bind_none]
    · rw [← List.mem_singleton.1 hlast, h]
      cases hexValue t <;> rfl

/-! ### One line -/

section
variable (om : OpMap) (k : Nat) {t : Text}

theorem loadLine_of_noValue (h : t.length ≠ 8 ∨ hexValue t = none) :
    loadLine om k t = .error (.syntaxException k) := by
  unfold loadLine
  obtain h | h := h <;> simp [h]

theorem loadLine_of_value {v : Nat} (hlen : t.length = 8) (hv : hexValue t = some v) :
    loadLine om k t = if 0xFFFF < v then .error (.syntaxException k)
      else decodeRecord om (BitVec.ofNat 16 v) k k := by
  simp [loadLine, hlen, hv]

end

/-- Settles O48: the stream by induction on its lines, a line by its token's value, and a token's value by
its last digit. -/
theorem loaderDecodesEveryLineInOrder : Obligations.LoaderDecodesEveryLineInOrder := by
  refine ⟨fun om ts prog => ?_, fun om ts f => ?_, fun om k t => ⟨fun h => ?_, fun v hlen hv hbig => ?_,
    fun v hlen hv hsmall => ?_⟩,
    fun c => (hexDigitValue_ne_none_iff c).trans (mem_digits_iff c).symm, fun c n => ?_,
    fun c d => hexValue_singleton, fun t c n d ht hc => ?_⟩
  · simpa only [loadProgram, Nat.zero_add] using loadFrom_eq_ok_iff om 0 ts prog
  · simpa only [loadProgram, Nat.zero_add] using loadFrom_eq_error_iff om 0 ts f
  · exact loadLine_of_noValue om k (h.imp_right fun ⟨c, hc, bad⟩ => hexValue_eq_none_of_mem hc bad)
  · rw [loadLine_of_value om k hlen hv, if_pos hbig]
  · rw [loadLine_of_value om k hlen hv, if_neg (Nat.not_lt.2 hsmall)]
  · rw [toList_upperDigits, toList_lowerDigits, hexDigitValue_eq_some_iff]
  · rw [hexValue_append, ht, hc]
    rfl

end Sys2Proof.Asm
end

section
/-! PROOF. Labels (spec/30_encoding.md R106): pass 2 turns a label into the offset from the record's own
step, and an offset that fits its field brings the PC back to the label's step.  O54 is assembled from
these. -/

namespace Sys2Proof

/-! ### An operand value in its field, read back -/

/-- A signed field holds every number of its range, and extending it gives the number again. -/
theorem signExtend_ofInt {w W : Nat} (hw : 0 < w) (hW : w ≤ W) {v : Int} (lower : -2 ^ (w - 1) ≤ v)
    (upper : v < 2 ^ (w - 1)) : (BitVec.ofInt w v).signExtend W = BitVec.ofInt W v := by
  have wider : (2 : Int) ^ (w - 1) ≤ 2 ^ (W - 1) := pow_le_pow_right₀ (by decide) (by omega)
  apply BitVec.eq_of_toInt_eq
  rw [BitVec.toInt_signExtend_of_le hW, BitVec.toInt_ofInt_eq_self hw lower upper,
    BitVec.toInt_ofInt_eq_self (by omega) (by omega) (by omega)]

theorem sext8_ofInt {v : Int} (lower : -128 ≤ v) (upper : v ≤ 127) :
    sext8 (BitVec.ofInt 8 v) = BitVec.ofInt 32 v :=
  signExtend_ofInt (by decide) (by decide) (by omega) (by omega)

theorem sext11_ofInt {v : Int} (lower : -1024 ≤ v) (upper : v ≤ 1023) :
    sext11 (BitVec.ofInt 11 v) = BitVec.ofInt 32 v :=
  signExtend_ofInt (by decide) (by decide) (by omega) (by omega)

/-- A step plus the offset to another step is that step. -/
theorem ofNat_add_ofInt_sub (step target : Nat) :
    BitVec.ofNat 32 step + BitVec.ofInt 32 ((target : Int) - step) = BitVec.ofNat 32 target := by
  rw [← BitVec.ofInt_natCast, ← BitVec.ofInt_natCast, ← BitVec.ofInt_add]
  congr 1
  omega

end Sys2Proof

namespace Sys2Proof.Asm

open Sys2Proof.Machine

/-- The range of the mnemonics that take a label: imm8 for the branches, imm11 for J and JAL. -/
theorem immInRange_iff_of_takesLabel {m : Mnemonic} (h : m.takesLabel = true) (sg : Imm5Signed) (v : Int) :
    immInRange sg m v = true ↔
      (if m.format = .b then -128 else -1024) ≤ v ∧ v ≤ (if m.format = .b then 127 else 1023) := by
  cases m
  case beqz | bnez | bltz | bgez | bgtz | blez | j | jal =>
    simp [immInRange, immRange, Mnemonic.format]
  all_goals cases h

theorem resolve_of_absent (sg : Imm5Signed) {ls : Labels} {r : Record} {name : Text}
    (hj : r.jumpto = some name) (habsent : ls.find name = none) :
    resolve sg ls r = .error (.labelNotFound name r.lineNo) := by
  simp [resolve, hj, habsent]

theorem resolve_of_found (sg : Imm5Signed) {ls : Labels} {r : Record} {name : Text} {target : Nat}
    (hj : r.jumpto = some name) (hfound : ls.find name = some target) :
    resolve sg ls r = if immInRange sg r.mn ((target : Int) - r.stepNo)
      then .ok { r with imm := (target : Int) - r.stepNo, jumpto := none }
      else .error (.rangeError r.lineNo) := by
  simp [resolve, hj, hfound]

/-- Where a branch or jump that takes a label goes, if it goes anywhere: its offset from its own step. -/
theorem eq_of_explicitTarget_toInstr {r : Record} (h : r.mn.takesLabel = true) {s : State} {n : Word}
    (hn : explicitTarget r.toInstr s = some n) :
    n = s.pc + if r.mn.format = .b then sext8 (BitVec.ofInt 8 r.imm)
      else sext11 (BitVec.ofInt 11 r.imm) := by
  obtain ⟨m, line, step, rs, rt, rd, imm, jumpto⟩ := r
  cases m
  case beqz | bnez | bltz | bgez | bgtz | blez =>
    simp only [Record.toInstr, explicitTarget, Option.ite_none_right_eq_some] at hn
    obtain ⟨-, hn⟩ := hn
    cases hn
    rfl
  case j | jal =>
    cases hn
    rfl
  all_goals cases h

/-- An offset in the mnemonic's range, read back from its field. -/
theorem sext_ofInt_of_inRange {m : Mnemonic} (h : m.takesLabel = true) {sg : Imm5Signed} {v : Int}
    (hv : immInRange sg m v = true) :
    (if m.format = .b then sext8 (BitVec.ofInt 8 v) else sext11 (BitVec.ofInt 11 v)) =
      BitVec.ofInt 32 v := by
  obtain ⟨lower, upper⟩ := (immInRange_iff_of_takesLabel h sg v).1 hv
  split at lower
  case isTrue hb =>
    rw [if_pos hb] at upper ⊢
    exact sext8_ofInt lower upper
  case isFalse hb =>
    rw [if_neg hb] at upper ⊢
    exact sext11_ofInt lower upper

/-- Settles O54: the table's answer and the range decide what pass 2 gives, and at the record's step the
offset leads to the label's. -/
theorem labelsResolveToTheirStep : Obligations.LabelsResolveToTheirStep := by
  intro sg ls r name hj htakes
  refine ⟨resolve_of_absent sg hj, fun target hfound => ⟨fun hout => ?_, fun hin => ?_⟩⟩
  · have outOfRange : ¬ immInRange sg r.mn ((target : Int) - r.stepNo) = true := by
      rw [immInRange_iff_of_takesLabel htakes]
      omega
    rw [resolve_of_found sg hj hfound, if_neg outOfRange]
  · have inRange : immInRange sg r.mn ((target : Int) - r.stepNo) = true :=
      (immInRange_iff_of_takesLabel htakes sg _).2 hin
    refine ⟨_, by rw [resolve_of_found sg hj hfound, if_pos inRange], rfl, fun s n hpc hn => ?_⟩
    rw [eq_of_explicitTarget_toInstr (r := { r with imm := _, jumpto := none }) htakes hn,
      sext_ofInt_of_inRange htakes inRange, hpc,
      ofNat_add_ofInt_sub]

end Sys2Proof.Asm
end

section
/-! PROOF. The R-format instructions (spec/40_register_alu.md R120 to R126): the pattern of R78 is the word of
its mnemonic, and the words written are the spec's numbers and comparisons.  O33, O34 and O35 are assembled
from these and from what `writeReg` does. -/

namespace Sys2Proof.Machine

/-! ### Words -/

/-- Under the reference map the word of a mnemonic's format is its instruction's, both ways. -/
theorem isWordOf_build (m : Mnemonic) (f : Fields) :
    IsWordOf (m.word OpMap.reference f) (m.build f) := by
  have encoded := Mnemonic.encode_build OpMap.reference m f
  exact ⟨encoded ▸ decodeWord_encode_build OpMap.reference_consistent m f, encoded⟩

theorem isWordOf_patternR (m : Mnemonic) (hm : m.format = .r) (rs rt rd : RegIdx) :
    IsWordOf (patternR (OpMap.reference.opcode m) rs rt rd (OpMap.reference.func m))
      (m.build ⟨rs, rt, rd, 0, 0, 0, 0⟩) := by
  have word := isWordOf_build m ⟨rs, rt, rd, 0, 0, 0, 0⟩
  rw [Mnemonic.word, hm] at word
  rwa [patternR_eq rfl rfl]

/-! ### The truth words of the comparisons -/

theorem boolWord_decide (p : Prop) [Decidable p] : boolWord (decide p) = if p then 1 else 0 := by
  simp only [boolWord, decide_eq_true_eq]

theorem boolWord_ltSigned (a b : Word) :
    boolWord (ltSigned a b) = if a.toInt < b.toInt then 1 else 0 :=
  boolWord_decide _

theorem boolWord_ltUnsigned (a b : Word) :
    boolWord (ltUnsigned a b) = if a.toNat < b.toNat then 1 else 0 :=
  boolWord_decide _

theorem State.boolWord_ltu (s : State) (a b : Word) :
    boolWord (s.ltu a b) = if s.params.sltuUnsigned then (if a.toNat < b.toNat then 1 else 0)
      else if a.toInt < b.toInt then 1 else 0 := by
  rw [State.ltu, apply_ite boolWord, boolWord_ltUnsigned, boolWord_ltSigned]

/-! ### The instructions -/

/-- Settles O33: each is `writeReg` of its result. -/
theorem registerLogicalResults : Obligations.RegisterLogicalResults := fun s rd rs rt =>
  ⟨⟨isWordOf_patternR .and rfl rs rt rd, s.writeReg_spec rd _⟩,
   ⟨isWordOf_patternR .or rfl rs rt rd, s.writeReg_spec rd _⟩,
   ⟨isWordOf_patternR .xor rfl rs rt rd, s.writeReg_spec rd _⟩⟩

/-- Settles O34: word addition and subtraction are the signed ones narrowed to 32 bits. -/
theorem registerArithmeticResults : Obligations.RegisterArithmeticResults := by
  intro s rd rs rt
  have sum : BitVec.ofInt 32 ((s.reg rs).toInt + (s.reg rt).toInt) = s.reg rs + s.reg rt := by
    rw [← BitVec.toInt_inj, BitVec.toInt_ofInt, BitVec.toInt_add]
  have difference : BitVec.ofInt 32 ((s.reg rs).toInt - (s.reg rt).toInt) = s.reg rs - s.reg rt := by
    rw [← BitVec.toInt_inj, BitVec.toInt_ofInt, BitVec.toInt_sub]
  rw [sum, difference]
  exact ⟨⟨isWordOf_patternR .add rfl rs rt rd, s.writeReg_spec rd _⟩,
    ⟨isWordOf_patternR .sub rfl rs rt rd, s.writeReg_spec rd _⟩⟩

/-- Settles O35: the word written is the truth word of the comparison, which for SLTU the parameter selects. -/
theorem registerComparisonResults : Obligations.RegisterComparisonResults := by
  intro s rd rs rt
  rw [← s.boolWord_ltu, ← boolWord_ltSigned]
  exact ⟨⟨isWordOf_patternR .slt rfl rs rt rd, s.writeReg_spec rd _⟩,
    ⟨isWordOf_patternR .sltu rfl rs rt rd, s.writeReg_spec rd _⟩⟩

end Sys2Proof.Machine
end

section
/-! PROOF. The shifts and immediate ALU instructions (spec/41_immediate_alu.md R140 to R144 and R146 to R150):
the shifts of a word as its products and quotients by a power of two, and the rotation bit by bit.  O36, O37
and O38 are assembled from these, from the words of R78 and from what `writeReg` does. -/

namespace Sys2Proof.Machine

/-! ### Words -/

theorem isWordOf_patternI (m : Mnemonic) (hm : m.format = .i) (rs rt : RegIdx) (v : BitVec 5) :
    IsWordOf (patternI (OpMap.reference.opcode m) rs rt v) (m.build ⟨rs, rt, 0, 0, v, 0, 0⟩) := by
  have word := isWordOf_build m ⟨rs, rt, 0, 0, v, 0, 0⟩
  rw [Mnemonic.word, hm] at word
  rwa [patternI_eq rfl]

/-! ### Shifts as numbers, at any width -/

theorem shiftLeft_eq_ofNat_mul {w : Nat} (a : BitVec w) (n : Nat) :
    a <<< n = BitVec.ofNat w (a.toNat * 2 ^ n) := by
  rw [← BitVec.toNat_inj, BitVec.toNat_shiftLeft, Nat.shiftLeft_eq, BitVec.toNat_ofNat]

theorem ushiftRight_eq_ofNat_div {w : Nat} (a : BitVec w) (n : Nat) :
    a >>> n = BitVec.ofNat w (a.toNat / 2 ^ n) := by
  rw [← Nat.shiftRight_eq_div_pow, ← BitVec.toNat_ushiftRight, BitVec.ofNat_toNat, BitVec.setWidth_eq]

theorem sshiftRight_eq_ofInt_div {w : Nat} (a : BitVec w) (n : Nat) :
    a.sshiftRight n = BitVec.ofInt w (a.toInt / 2 ^ n) := by
  rw [BitVec.sshiftRight_eq, Int.shiftRight_eq_div_pow, Nat.cast_pow, Nat.cast_ofNat]

/-! ### The rotation -/

/-- The rotation R143 composes is the library's, count 0 included. -/
theorem rotateRight_eq (a : Word) (n : BitVec 5) : rotateRight a n = a.rotateRight n.toNat := by
  rw [rotateRight, BitVec.rotateRight_def, Nat.mod_eq_of_lt n.isLt]
  split
  case isTrue noCount => subst noCount; simp
  case isFalse => rfl

theorem getLsbD_rotateRight (a : Word) (n : BitVec 5) {k : Nat} (hk : k < 32) :
    (rotateRight a n).getLsbD k = a.getLsbD ((k + n.toNat) % 32) := by
  have hn : n.toNat < 32 := n.isLt
  rw [rotateRight_eq, BitVec.getLsbD_rotateRight_of_lt hn]
  by_cases below : k < 32 - n.toNat
  · rw [decide_eq_true below, cond_true, Nat.mod_eq_of_lt (by omega), Nat.add_comm]
  · have wrapped : (k + n.toNat) % 32 = k - (32 - n.toNat) := by omega
    rw [decide_eq_false below, cond_false, decide_eq_true hk, Bool.true_and, wrapped]

/-! ### The instructions -/

/-- Settles O36: each is `writeReg` of the shifted or rotated source. -/
theorem shiftResults : Obligations.ShiftResults := by
  intro s rt rs n
  rw [← shiftLeft_eq_ofNat_mul, ← ushiftRight_eq_ofNat_div, ← sshiftRight_eq_ofInt_div]
  obtain ⟨t, rorStep, rorWrites⟩ := s.writeReg_spec rt (rotateRight (s.reg rs) n)
  exact ⟨⟨isWordOf_patternI .sll rfl rs rt n, s.writeReg_spec rt _⟩,
    ⟨isWordOf_patternI .srl rfl rs rt n, s.writeReg_spec rt _⟩,
    ⟨isWordOf_patternI .sra rfl rs rt n, s.writeReg_spec rt _⟩,
    isWordOf_patternI .ror rfl rs rt n, t, rotateRight (s.reg rs) n, rorStep, rorWrites,
    fun _ hk => getLsbD_rotateRight _ n hk, rfl⟩

/-- Settles O37: each is `writeReg` of its result, the immediate extended as its entry of `IMM5_SIGNED` says. -/
theorem immediateLogicalResults : Obligations.ImmediateLogicalResults := fun s rt rs v =>
  ⟨⟨isWordOf_patternI .andi rfl rs rt v, s.writeReg_spec rt (s.reg rs &&& s.imm5 .andi v)⟩,
   ⟨isWordOf_patternI .ori rfl rs rt v, s.writeReg_spec rt (s.reg rs ||| s.imm5 .ori v)⟩,
   ⟨isWordOf_patternI .xori rfl rs rt v, s.writeReg_spec rt (s.reg rs ^^^ s.imm5 .xori v)⟩,
   rfl, rfl, rfl⟩

/-- Settles O38: each is `writeReg` of the word sum, which is the signed one narrowed to 32 bits, or of the truth
word of its comparison. -/
theorem immediateArithmeticResults : Obligations.ImmediateArithmeticResults := by
  intro s rt rs v
  rw [BitVec.ofInt_add, BitVec.ofInt_toInt, BitVec.ofInt_toInt, ← boolWord_ltSigned, ← s.boolWord_ltu]
  exact ⟨⟨isWordOf_patternI .addi rfl rs rt v, s.writeReg_spec rt (s.reg rs + s.imm5 .addi v)⟩,
    ⟨isWordOf_patternI .slti rfl rs rt v,
      s.writeReg_spec rt (boolWord (ltSigned (s.reg rs) (s.imm5 .slti v)))⟩,
    ⟨isWordOf_patternI .sltiu rfl rs rt v, s.writeReg_spec rt (boolWord (s.ltu (s.reg rs) (s.imm5 .sltiu v)))⟩,
    rfl, rfl, rfl⟩

end Sys2Proof.Machine
end

section
/-! PROOF. The load and the store (spec/42_load_store.md R169 to R172): what a fault of the executed instruction
makes of the step, that only a store changes memory, and that only a load's result depends on it.  O30, O39
and O40 are assembled from these, from the words of R78 and from what `loadReg` and `storeWord` do. -/

namespace Sys2Proof.Machine

/-! ### A step whose instruction faults -/

/-- The step records the fault of the instruction it executes and does nothing else (R33, R213). -/
theorem step_of_exec_fault {s : State} {i : Instr} {e : Fault} (he : exec i s = .fault e) {p : Loaded}
    (h : s.Executing) (hf : s.fetch = some p) (hp : p.instr = i) : step s = .next (s.recordFault e) := by
  rw [step_of_executing h hf, hp, he]
  rfl

/-! ### Memory is written by the store alone -/

theorem State.commit_sameMemory {s t : State} {e : Effect} (h : s.commit e = .next t)
    (noStore : e.memWrite = none) : SameMemory s t := by
  rw [State.commit, noStore] at h
  cases h
  exact ⟨rfl, fun _ => rfl⟩

theorem State.loadReg_sameMemory {s t : State} {r : RegIdx} {a : Word} (h : s.loadReg r a = .next t) :
    SameMemory s t := by
  obtain ⟨-, hl⟩ | ⟨-, hl⟩ := s.loadReg_cases r a <;> rw [hl] at h
  · cases h
  · exact State.commit_sameMemory h rfl

/-- Of the six operations an instruction can be, only `storeWord` commits a memory write. -/
theorem exec_sameMemory {i : Instr} {s t : State} (hi : i.mnemonic ≠ .sw) (h : exec i s = .next t) :
    SameMemory s t := by
  obtain ⟨r, v, he, -⟩ | ⟨r, a, he, -⟩ | ⟨a, v, -, -, -, hsw⟩ | ⟨b, n, he, -⟩ | ⟨n, he, -⟩ | ⟨n, he, -⟩ :=
    exec_cases i s
  case inr.inr.inl => exact absurd hsw hi
  all_goals rw [he] at h
  case inr.inl => exact State.loadReg_sameMemory h
  all_goals exact State.commit_sameMemory h rfl

/-! ### Memory is read by the load alone -/

/-- A commit's registers and PC, and whether its store completes, do not depend on what memory holds. -/
theorem State.commit_otherMemory {s t : State} {e : Effect} (h : s.commit e = .next t) (m : Memory) :
    ∃ u, State.commit { s with mem := m } e = .next u ∧ u.regs = t.regs ∧ u.pc = t.pc := by
  obtain ⟨a, v, hw, hv, -⟩ | ⟨_, -, hother⟩ := State.commit_cases { s with mem := m } e
  · have missing : s.memWrite a v = .error (.memoryFault a s.pc) := State.memWrite_invalid v hv
    simp only [State.commit, hw, missing] at h
    cases h
  · obtain ⟨_, _, _, _, hc⟩ | ⟨_, -, hc⟩ := s.commit_cases e <;> rw [hc] at h <;> cases h
    exact ⟨_, hother, rfl, rfl⟩

/-- Every instruction but LW is a commit whose effect is a function of parameters, registers and PC. -/
theorem exec_otherMemory {i : Instr} {s t : State} (hi : i.mnemonic ≠ .lw) (h : exec i s = .next t)
    (m : Memory) : ∃ u, exec i { s with mem := m } = .next u ∧ u.regs = t.regs ∧ u.pc = t.pc := by
  cases i
  case lw => exact absurd rfl hi
  case sw => exact State.commit_otherMemory (e := { memWrite := some (_, _) }) h m
  case beqz | bnez | bltz | bgez | bgtz | blez =>
    exact State.commit_otherMemory (e := { nextPc := if (_ : Bool) then some _ else none }) h m
  case jr | j => exact State.commit_otherMemory (e := { nextPc := some _ }) h m
  case jalr | jal => exact State.commit_otherMemory (e := { regWrite := some (7, _), nextPc := some _ }) h m
  all_goals exact State.commit_otherMemory (e := { regWrite := some (_, _) }) h m

/-- Settles O30: only SW commits a memory write, and every instruction but LW commits the same over any memory. -/
theorem onlyLoadAndStoreTouchMemory : Obligations.OnlyLoadAndStoreTouchMemory :=
  ⟨fun _ _ _ => exec_sameMemory, fun _ _ _ m hi h => exec_otherMemory hi h m⟩

/-! ### The instructions -/

/-- Settles O39: LW is `loadReg` at its effective address, whose two cases are `MEM_VALID`'s. -/
theorem loadWordResult : Obligations.LoadWordResult := fun _ _ rs v =>
  ⟨isWordOf_patternI .lw rfl rs _ v, rfl, rfl, State.loadReg_valid, fun missing =>
    have faults := State.loadReg_invalid missing
    ⟨faults, fun _ => step_of_exec_fault (i := .lw _ rs v) faults⟩⟩

/-- Settles O40: SW is `storeWord` at its effective address, whose two cases are `MEM_VALID`'s. -/
theorem storeWordResult : Obligations.StoreWordResult := fun _ _ rs v canonical =>
  ⟨isWordOf_patternI .sw rfl rs _ v, rfl, rfl, fun valid => State.storeWord_valid _ valid canonical,
    fun missing =>
    have faults := State.storeWord_invalid _ missing
    ⟨faults, fun _ => step_of_exec_fault (i := .sw _ rs v) faults⟩⟩

end Sys2Proof.Machine
end

section
/-! PROOF. The branches and jumps (spec/43_branch_jump.md R178, R180 to R189): the words of R78, and the branch
template under a signed predicate.  O41, O42 and O43 are assembled from these, from the branch conditions of
O27 and from what `jumpTo` and `linkAndJump` do. -/

namespace Sys2Proof.Machine

/-! ### Words -/

theorem isWordOf_patternB (m : Mnemonic) (hm : m.format = .b) (rs : RegIdx) (d : BitVec 8) :
    IsWordOf (patternB (OpMap.reference.opcode m) rs d) (m.build ⟨rs, 0, 0, 0, 0, d, 0⟩) := by
  have word := isWordOf_build m ⟨rs, 0, 0, 0, 0, d, 0⟩
  rw [Mnemonic.word, hm] at word
  rwa [patternB_eq rfl]

theorem isWordOf_patternJ (m : Mnemonic) (hm : m.format = .j) (v : BitVec 11) :
    IsWordOf (patternJ (OpMap.reference.opcode m) v) (m.build ⟨0, 0, 0, 0, 0, 0, v⟩) := by
  have word := isWordOf_build m ⟨0, 0, 0, 0, 0, 0, v⟩
  rw [Mnemonic.word, hm] at word
  rwa [patternJ_eq rfl]

/-! ### The branch template -/

/-- A branch whose condition decides a predicate is taken exactly where the predicate holds. -/
theorem State.branch_spec_of_decides (s : State) {p : Prop} [Decidable p] {taken : Bool}
    (decides : taken = decide p) (n : Word) :
    ∃ t, s.branch taken n = .next t ∧ PcStep s t (if p then n else s.pc + 1) := by
  subst decides
  simpa only [decide_eq_true_eq] using s.branch_spec (decide p) n

/-! ### The instructions -/

/-- Settles O41: each is `branch` under its signed comparison of the source with 0. -/
theorem branchResults : Obligations.BranchResults := fun s rs d =>
  ⟨⟨isWordOf_patternB .beqz rfl rs d, s.branch_spec_of_decides (isEqZ_eq _) _⟩,
   ⟨isWordOf_patternB .bnez rfl rs d, s.branch_spec_of_decides (isNeZ_eq _) _⟩,
   ⟨isWordOf_patternB .bltz rfl rs d, s.branch_spec_of_decides (isLtZ_eq _) _⟩,
   ⟨isWordOf_patternB .bgez rfl rs d, s.branch_spec_of_decides (isGeZ_eq _) _⟩,
   ⟨isWordOf_patternB .bgtz rfl rs d, s.branch_spec_of_decides (isGtZ_eq _) _⟩,
   ⟨isWordOf_patternB .blez rfl rs d, s.branch_spec_of_decides (isLeZ_eq _) _⟩⟩

/-- Settles O42: JR is `jumpTo` and JALR `linkAndJump`, the target computed from the state before the link is
written. -/
theorem registerJumpResults : Obligations.RegisterJumpResults := fun s rs d =>
  ⟨⟨isWordOf_patternB .jr rfl rs d, s.jumpTo_spec (s.registerTarget rs d)⟩,
   ⟨isWordOf_patternB .jalr rfl rs d, s.linkAndJump_spec (s.registerTarget rs d)⟩⟩

/-- Settles O43: J is `jumpTo` and JAL `linkAndJump` of the target relative to the jump's own step. -/
theorem relativeJumpResults : Obligations.RelativeJumpResults := fun s d =>
  ⟨⟨isWordOf_patternJ .j rfl d, s.jumpTo_spec (s.jumpTarget d)⟩,
   ⟨isWordOf_patternJ .jal rfl d, s.linkAndJump_spec (s.jumpTarget d)⟩⟩

end Sys2Proof.Machine
end

section
/-! PROOF. SET, SSET and the constants they build in register 0 (spec/44_wide_immediate.md R200 to R202): the
accumulator's word as a number, the copy of a register to another, and that an instruction leaves every register
alone but the one of `writtenRegister`.  O44 and O45 are assembled from these. -/

namespace Sys2Proof.Machine

/-! ### The accumulator as a number -/

@[simp] theorem zext11_toNat (v : BitVec 11) : (zext11 v).toNat = v.toNat :=
  BitVec.toNat_setWidth_of_le (by decide)

/-- Shifted left by 11, a word has zeros where the immediate has its bits, so the `|` of R201 is a sum. -/
theorem shiftLeft_or_zext11 (a : Word) (v : BitVec 11) :
    (a <<< 11) ||| zext11 v = BitVec.ofNat 32 (a.toNat * 2 ^ 11 + v.toNat) := by
  have disjoint : (a <<< 11) &&& zext11 v = 0#32 := by
    ext k hk
    rw [← BitVec.getLsbD_eq_getElem, BitVec.getLsbD_and, BitVec.getLsbD_shiftLeft, zext11_getLsbD v hk]
    by_cases inField : k < 11 <;> simp [inField]
  rw [← BitVec.add_eq_or_of_and_eq_zero _ _ disjoint, shiftLeft_eq_ofNat_mul, BitVec.ofNat_add,
    ← zext11_toNat, BitVec.ofNat_toNat, BitVec.setWidth_eq]

theorem exec_set_reg (s : State) (v : BitVec 11) : ∃ t, exec (.set v) s = .next t ∧
    (t.reg 0).toNat = v.toNat ∧ ∀ r, r ≠ 0 → t.reg r = s.reg r := by
  obtain ⟨t, ht, accumulator, others, -⟩ := s.writeReg_spec 0 (zext11 v)
  exact ⟨t, ht, by rw [accumulator, zext11_toNat], others⟩

theorem exec_sset_reg (s : State) (v : BitVec 11) : ∃ t, exec (.sset v) s = .next t ∧
    (t.reg 0).toNat = ((s.reg 0).toNat * 2048 + v.toNat) % 2 ^ 32 ∧ ∀ r, r ≠ 0 → t.reg r = s.reg r := by
  obtain ⟨t, ht, accumulator, others, -⟩ := s.writeReg_spec 0 ((s.reg 0 <<< 11) ||| zext11 v)
  exact ⟨t, ht, by simp only [accumulator, shiftLeft_or_zext11, BitVec.toNat_ofNat, Nat.reducePow], others⟩

/-- `set h` and `sset l` together: two immediates fill 22 bits, so nothing is lost. -/
theorem exec_set_sset (s : State) (h l : BitVec 11) :
    ∃ t u, exec (.set h) s = .next t ∧ exec (.sset l) t = .next u ∧
      (u.reg 0).toNat = h.toNat * 2048 + l.toNat ∧ ∀ r, r ≠ 0 → u.reg r = s.reg r := by
  obtain ⟨t, ht, high, others⟩ := exec_set_reg s h
  obtain ⟨u, hu, both, others'⟩ := exec_sset_reg t l
  refine ⟨t, u, ht, hu, ?_, fun r hr => (others' r hr).trans (others r hr)⟩
  rw [both, high]
  exact Nat.mod_eq_of_lt (by omega)

theorem exists_two_immediates {n : Nat} (hn : n < 2 ^ 22) :
    ∃ h l : BitVec 11, n = h.toNat * 2048 + l.toNat := by
  refine ⟨BitVec.ofNat 11 (n / 2048), BitVec.ofNat 11 (n % 2048), ?_⟩
  rw [BitVec.toNat_ofNat, BitVec.toNat_ofNat]
  omega

/-! ### Copying a register -/

/-- Either extension of R84 takes 0 to 0. -/
@[simp] theorem ext5_zero (sg : Imm5Signed) (m : Mnemonic) : ext5 sg m 0#5 = 0#32 := by
  cases hs : sg.signed m <;> simp [ext5, hs, sext5, zext5]

theorem exec_addi_zero (s : State) (n m : RegIdx) :
    ∃ t, exec (.addi n m 0) s = .next t ∧ t.reg n = s.reg m := by
  obtain ⟨t, ht, sum, -⟩ := s.writeReg_spec n (s.reg m + s.imm5 .addi 0)
  exact ⟨t, ht, by simp [sum, State.imm5]⟩

theorem exec_add_zero (s : State) (n m : RegIdx) {z : RegIdx} (hz : s.reg z = 0) :
    ∃ t, exec (.add n m z) s = .next t ∧ t.reg n = s.reg m := by
  obtain ⟨t, ht, sum, -⟩ := s.writeReg_spec n (s.reg m + s.reg z)
  exact ⟨t, ht, by simp [sum, hz]⟩

/-! ### The register an instruction writes -/

theorem State.commit_otherRegister {s t : State} {e : Effect} {q : RegIdx} (h : s.commit e = .next t)
    (other : ∀ r v, e.regWrite = some (r, v) → q ≠ r) : t.reg q = s.reg q := by
  obtain ⟨_, _, _, _, hc⟩ | ⟨m, -, hc⟩ := s.commit_cases e <;> rw [hc] at h <;> cases h
  obtain ⟨_ | ⟨r, v⟩, _, _⟩ := e
  case none => rfl
  case some => exact s.reg_setReg_ne v (other r v rfl)

theorem State.writeReg_otherRegister {s t : State} {r q : RegIdx} {v : Word} (h : s.writeReg r v = .next t)
    (hq : q ≠ r) : t.reg q = s.reg q :=
  State.commit_otherRegister h fun _ _ written => by cases written; exact hq

theorem State.loadReg_otherRegister {s t : State} {r q : RegIdx} {a : Word} (h : s.loadReg r a = .next t)
    (hq : q ≠ r) : t.reg q = s.reg q := by
  obtain ⟨-, hl⟩ | ⟨-, hl⟩ := s.loadReg_cases r a <;> rw [hl] at h
  · cases h
  · exact State.writeReg_otherRegister h hq

theorem State.linkAndJump_otherRegister {s t : State} {q : RegIdx} {n : Word}
    (h : s.linkAndJump n = .next t) (hq : q ≠ 7) : t.reg q = s.reg q :=
  State.commit_otherRegister h fun _ _ written => by cases written; exact hq

/-- An instruction changes no register but its `writtenRegister`. -/
theorem exec_otherRegister {i : Instr} {s t : State} {q : RegIdx} (h : exec i s = .next t)
    (hq : writtenRegister i ≠ some q) : t.reg q = s.reg q := by
  obtain ⟨r, v, he, -, hw, -⟩ | ⟨r, a, he, -, hw, -⟩ | ⟨a, v, he, -⟩ | ⟨b, n, he, -⟩ | ⟨n, he, -⟩ |
    ⟨n, he, -, hw, -⟩ := exec_cases i s <;> rw [he] at h
  case inl => exact State.writeReg_otherRegister h fun same => hq (same ▸ hw)
  case inr.inl => exact State.loadReg_otherRegister h fun same => hq (same ▸ hw)
  case inr.inr.inr.inr.inr => exact State.linkAndJump_otherRegister h fun same => hq (same ▸ hw)
  all_goals exact State.commit_otherRegister h fun _ _ written => by cases written

/-- The link register is not register 0, so an instruction that writes register 0 names it or is SET or SSET. -/
theorem accumulator_written_cases {i : Instr} (h : writtenRegister i = some 0) :
    namedDest i = some 0 ∨ i.mnemonic = .set ∨ i.mnemonic = .sset := by
  cases i
  case set => exact Or.inr (Or.inl rfl)
  case sset => exact Or.inr (Or.inr rfl)
  case jal | jalr => exact absurd h (by decide : some (7 : RegIdx) ≠ some 0)
  all_goals exact Or.inl h

/-! ### The obligations -/

/-- Settles O44: each is `writeReg` of register 0, and the shift-or of SSET is a sum. -/
theorem wideImmediateResults : Obligations.WideImmediateResults := by
  intro s v
  rw [← shiftLeft_or_zext11, BitVec.ofNat_toNat]
  obtain ⟨t, ht, sset⟩ := s.writeReg_spec 0 ((s.reg 0 <<< 11) ||| zext11 v)
  exact ⟨⟨isWordOf_patternJ .set rfl v, s.writeReg_spec 0 (zext11 v)⟩,
    isWordOf_patternJ .sset rfl v, t, ht, sset, sset⟩

/-- Settles O45: the pair by the numbers of SET and SSET, the moves as copies of register 0, and the last clause
by the register an instruction writes. -/
theorem twoStepConstant : Obligations.TwoStepConstant := by
  refine ⟨fun s h l => ?_, fun _ hn => exists_two_immediates hn, fun i s t hexec changed => ?_⟩
  · obtain ⟨t, u, ht, hu, value, others⟩ := exec_set_sset s h l
    refine ⟨t, u, ht, hu, value, others, fun n => exec_addi_zero u n 0, fun n _ hz => exec_add_zero u n 0 hz,
      fun k => ?_⟩
    obtain ⟨v, hv, third, -⟩ := exec_sset_reg u k
    exact ⟨v, hv, by rw [third, value]⟩
  · exact accumulator_written_cases (by_contra fun hw => changed (exec_otherRegister hexec hw))

end Sys2Proof.Machine
end

section
/-! PROOF. The fatal errors (spec/60_exceptions.md R210, R211, R213): a commit faults exactly on its own
store, so an instruction faults exactly when it has a memory address that does not exist, and the step that
meets the fault records it and changes nothing else.  O24 and O25 are assembled from these. -/

namespace Sys2Proof.Machine

/-! ### Which instructions fault -/

/-- An effect faults exactly when it stores at an address that does not exist. -/
theorem State.commit_eq_fault_iff (s : State) (e : Effect) (f : Fault) :
    s.commit e = .fault f ↔
      ∃ a v, e.memWrite = some (a, v) ∧ s.params.addrValid a = false ∧ f = .memoryFault a s.pc := by
  obtain ⟨a, v, hw, hv, hc⟩ | ⟨m, hm, hc⟩ := s.commit_cases e <;> rw [hc]
  · constructor
    · rintro ⟨⟩
      exact ⟨a, v, hw, hv, rfl⟩
    · rintro ⟨_, _, stores, -, rfl⟩
      cases hw.symm.trans stores
      rfl
  · obtain ⟨hw, -⟩ | ⟨a, v, hw, hv, -⟩ := hm
    · simp [hw]
    · simp [hw, hv]

theorem State.commit_ne_fault {s : State} {e : Effect} (noStore : e.memWrite = none) (f : Fault) :
    s.commit e ≠ .fault f := by
  simp [State.commit_eq_fault_iff, noStore]

theorem State.loadReg_eq_fault_iff (s : State) (r : RegIdx) (a : Word) (f : Fault) :
    s.loadReg r a = .fault f ↔ s.params.addrValid a = false ∧ f = .memoryFault a s.pc := by
  obtain ⟨hv, hl⟩ | ⟨hv, hl⟩ := s.loadReg_cases r a <;> rw [hl]
  · simp [hv, eq_comm]
  · exact iff_of_false (State.commit_ne_fault rfl f) (by simp [hv])

theorem State.storeWord_eq_fault_iff (s : State) (a v : Word) (f : Fault) :
    s.storeWord a v = .fault f ↔ s.params.addrValid a = false ∧ f = .memoryFault a s.pc := by
  simp [State.storeWord, State.commit_eq_fault_iff]

/-- An instruction faults exactly when its memory address does not exist: only the load and the store have
one, and every other operation commits no store. -/
theorem exec_eq_fault_iff (i : Instr) (s : State) (f : Fault) :
    exec i s = .fault f ↔
      ∃ ea, memoryAddress i s = some ea ∧ s.params.addrValid ea = false ∧ f = .memoryFault ea s.pc := by
  obtain ⟨r, v, he, ha, -⟩ | ⟨r, a, he, ha, -⟩ | ⟨a, v, he, ha, -⟩ | ⟨b, n, he, ha, -⟩ | ⟨n, he, ha, -⟩ |
    ⟨n, he, ha, -⟩ := exec_cases i s <;> rw [he, ha]
  case inr.inl => simp [State.loadReg_eq_fault_iff]
  case inr.inr.inl => simp [State.storeWord_eq_fault_iff]
  all_goals exact iff_of_false (State.commit_ne_fault rfl f) (by simp)

theorem memoryAddress_ne_none_iff (i : Instr) (s : State) :
    memoryAddress i s ≠ none ↔ isMemoryOp i = true := by
  cases i <;> simp [memoryAddress, isMemoryOp]

/-! ### The host's register access -/

theorem hostIndexOk_eq_false_iff (i : Int) : hostIndexOk i = false ↔ i < 0 ∨ 7 < i := by
  simp only [hostIndexOk, Bool.and_eq_false_iff, decide_eq_false_iff_not]
  omega

theorem State.hostGet_eq_error_iff (s : State) (i : Int) :
    s.hostGet i = .error (.registerIndexFault i) ↔ i < 0 ∨ 7 < i := by
  rw [← hostIndexOk_eq_false_iff, State.hostGet]
  cases hostIndexOk i <;> simp

theorem State.hostSet_eq_error_iff (s : State) (i : Int) (v : Word) :
    s.hostSet i v = .error (.registerIndexFault i) ↔ i < 0 ∨ 7 < i := by
  rw [← hostIndexOk_eq_false_iff, State.hostSet]
  cases hostIndexOk i <;> simp

/-! ### The obligations -/

/-- Settles O25: the faults of `exec` by its operations, those of the host's access by the index. -/
theorem fatalErrorsHaveTheseCausesOnly : Obligations.FatalErrorsHaveTheseCausesOnly :=
  ⟨exec_eq_fault_iff, memoryAddress_ne_none_iff,
    fun s i v => ⟨s.hostGet_eq_error_iff i, s.hostSet_eq_error_iff i v⟩⟩

/-- Settles O24: the step records the fault of its instruction in the status alone, and a faulted run is an
ended one. -/
theorem memoryFaultsArePrecise : Obligations.MemoryFaultsArePrecise := by
  intro s p ea hs hf hea missing
  have faults : exec p.instr s = .fault (.memoryFault ea s.pc) :=
    (exec_eq_fault_iff p.instr s _).2 ⟨ea, hea, missing, rfl⟩
  have ended : (s.recordFault (.memoryFault ea s.pc)).Ended := State.ended_iff.2 (Or.inl ⟨_, rfl⟩)
  exact ⟨_, step_of_exec_fault faults hs hf rfl, rfl, rfl, fun _ => rfl, ⟨rfl, fun _ => rfl⟩, rfl,
    (fun completed => by cases completed), step_of_faulted rfl, runSteps_of_ended ended⟩

end Sys2Proof.Machine
end

section
/-! PROOF. Cancellation, kill and the watchdog (spec/60_exceptions.md R220 to R223): the step after a request
ends the run, without a kill request no run is killed, and the watchdog as its three outcomes.  O18 and O22 are
assembled from these. -/

namespace Sys2Proof.Machine

/-- Settles O18: the step of a cancelled run changes the status alone. -/
theorem cancellationEndsTheRunBetweenSteps : Obligations.CancellationEndsTheRunBetweenSteps :=
  fun s hr hk hc hp => ⟨s.cancelRun, step_of_cancel hr hk hp hc, rfl, rfl, fun _ => rfl,
    ⟨rfl, fun _ => rfl⟩, rfl, rfl⟩

/-! ### What every run keeps -/

/-- What every step keeps holds after a run of any length. -/
theorem runSteps_induction {P : State → Prop} (keeps : ∀ s t, P s → step s = .next t → P t) {s : State}
    (hs : P s) (n : Nat) : P (runSteps n s) := by
  induction n generalizing s with
  | zero => exact hs
  | succ n ih =>
    by_cases hstep : ∃ t, step s = .next t
    · obtain ⟨t, ht⟩ := hstep
      rw [runSteps_succ_of_next ht]
      exact ih (keeps s t hs ht)
    · rwa [runSteps_of_stuck fun t ht => hstep ⟨t, ht⟩]

theorem State.settle_exec_ne_killed {i : Instr} {s t : State} (hs : s.status ≠ .killed)
    (h : s.settle (exec i s) = .next t) : t.status ≠ .killed := by
  cases he : exec i s with
  | next u =>
    rw [he] at h
    cases h
    obtain ⟨-, -, hstatus, -⟩ := exec_sameRun he
    rwa [hstatus]
  | fault e =>
    rw [he] at h
    cases h
    simp
  | refused r =>
    rw [he] at h
    cases h

/-- Only a kill request makes a step end a run `Killed`. -/
theorem step_ne_killed {s t : State} (hk : s.kill = false) (hs : s.status ≠ .killed)
    (h : step s = .next t) : t.status ≠ .killed := by
  obtain ⟨-, hkill, -⟩ | ⟨-, -, -, hstep⟩ | ⟨-, -, -, -, hstep⟩ | ⟨-, p, -, hstep⟩ | ⟨e, -, hstep⟩ |
    ⟨-, hstep⟩ := step_cases s
  case inl => simp [hk] at hkill
  all_goals rw [hstep] at h
  case inr.inr.inr.inl => exact State.settle_exec_ne_killed hs h
  case inr.inr.inr.inr.inr =>
    cases h
    exact hs
  case inr.inr.inr.inr.inl => cases h
  all_goals
    cases h
    simp

/-- Without a kill request a run keeps the kill input low and is not killed. -/
theorem runSteps_not_killed {s : State} (hk : s.kill = false) (hs : s.status ≠ .killed) (n : Nat) :
    (runSteps n s).kill = false ∧ (runSteps n s).status ≠ .killed := by
  refine runSteps_induction (P := fun u => u.kill = false ∧ u.status ≠ .killed) ?_ ⟨hk, hs⟩ n
  rintro u v ⟨huk, hus⟩ hstep
  obtain ⟨-, -, hkill⟩ := step_frame hstep
  exact ⟨hkill.trans huk, step_ne_killed huk hus hstep⟩

/-! ### The step after a request -/

theorem step_requestKill {s : State} (hr : s.status = .running) :
    step s.requestKill = .next s.requestKill.killRun := by
  simp [step, State.stepRun, hr]

/-- A request for cancellation is seen at the next step boundary (R220): the run is cancelled there, unless
its PC has left the program and it halts. -/
theorem runSteps_requestCancel {s : State} (hr : s.status = .running) (hk : s.kill = false) (n : Nat) :
    (runSteps (n + 1) s.requestCancel).status = if s.pcInProgram then .cancelled else .halted := by
  cases hp : s.pcInProgram with
  | false =>
    have halts := step_of_pcOutside (s := s.requestCancel) hr hk hp
    rw [runSteps_succ_of_next halts, runSteps_of_ended (State.ended_of_halted rfl)]
    rfl
  | true =>
    have cancels := step_of_cancel (s := s.requestCancel) hr hk hp rfl
    rw [runSteps_succ_of_next cancels, runSteps_of_ended (State.ended_iff.2 (Or.inr (Or.inr (Or.inl rfl))))]
    rfl

/-- A run that another step leaves running stands inside its program. -/
theorem pcInProgram_of_runs_on {s : State} (hr : s.status = .running) (hk : s.kill = false)
    (runsOn : (runSteps 1 s).status = .running) : s.pcInProgram = true := by
  cases hp : s.pcInProgram with
  | true => rfl
  | false =>
    rw [runSteps_succ_of_next (step_of_pcOutside hr hk hp)] at runsOn
    cases runsOn

/-! ### The watchdog -/

/-- The watchdog's outcomes (R223): the run ended within the first wait, or within the second after the
request, or it was killed. -/
theorem watchdog_cases (g k : Nat) (s : State) :
    ((runSteps g s).Ended ∧ watchdog g k s = runSteps g s) ∨
    ((runSteps g s).status = .running ∧ (runSteps k (runSteps g s).requestCancel).Ended ∧
      watchdog g k s = runSteps k (runSteps g s).requestCancel) ∨
    ((runSteps g s).status = .running ∧ (runSteps k (runSteps g s).requestCancel).status = .running ∧
      (watchdog g k s).status = .killed) := by
  by_cases first : (runSteps g s).status = .running
  · by_cases second : (runSteps k (runSteps g s).requestCancel).status = .running
    · refine Or.inr (Or.inr ⟨first, second, ?_⟩)
      simp [watchdog, first, second, runSteps, step_requestKill second]
    · exact Or.inr (Or.inl ⟨first, second, by simp [watchdog, first, second]⟩)
  · exact Or.inl ⟨first, by simp [watchdog, first]⟩

theorem watchdog_ended (g k : Nat) (s : State) : (watchdog g k s).Ended := by
  obtain ⟨ended, hw⟩ | ⟨-, ended, hw⟩ | ⟨-, -, killed⟩ := watchdog_cases g k s
  · rwa [hw]
  · rwa [hw]
  · exact State.ended_iff.2 (Or.inr (Or.inr (Or.inr killed)))

/-- The watchdog cancels or kills a run that never ends by itself: standing inside its program, it cannot
halt instead. -/
theorem watchdog_of_endless {s : State} (hk : s.kill = false)
    (endless : ∀ n, (runSteps n s).status = .running) (g k : Nat) :
    (watchdog g k s).status = .cancelled ∨ (watchdog g k s).status = .killed := by
  obtain ⟨ended, -⟩ | ⟨running, ended, hw⟩ | ⟨-, -, killed⟩ := watchdog_cases g k s
  · exact absurd (endless g) ended
  · have starts : s.status = .running := endless 0
    obtain ⟨hkill, -⟩ := runSteps_not_killed hk (by simp [starts]) g
    have inside : (runSteps g s).pcInProgram = true :=
      pcInProgram_of_runs_on running hkill (runSteps_add g 1 s ▸ endless (g + 1))
    cases k with
    | zero => exact absurd running ended
    | succ k => exact Or.inl (by rw [hw, runSteps_requestCancel running hkill, if_pos inside])
  · exact Or.inr killed

/-- A second wait of one step is enough for the request to be seen, so the watchdog does not kill. -/
theorem watchdog_ne_killed {s : State} (hr : s.status = .running) (hk : s.kill = false) (g k : Nat) :
    (watchdog g (k + 1) s).status ≠ .killed := by
  obtain ⟨hkill, notKilled⟩ := runSteps_not_killed hk (by simp [hr]) g
  obtain ⟨-, hw⟩ | ⟨running, -, hw⟩ | ⟨running, still, -⟩ := watchdog_cases g (k + 1) s
  · rwa [hw]
  · rw [hw, runSteps_requestCancel running hkill]
    split <;> simp
  · rw [runSteps_requestCancel running hkill] at still
    split at still <;> cases still

/-- Settles O22: by the watchdog's three outcomes. -/
theorem watchdogEndsEveryRun : Obligations.WatchdogEndsEveryRun := by
  refine fun g k s => ⟨watchdog_ended g k s, fun _ _ hk endless => watchdog_of_endless hk endless g k,
    fun hr hk one => ?_⟩
  obtain ⟨k, rfl⟩ := Nat.exists_eq_add_of_le' one
  exact watchdog_ne_killed hr hk g k

end Sys2Proof.Machine
end

section
/-! PROOF. Starting a run (spec/70_reset_and_hazards.md R241): a stream with a line that does not load has no
program, and a launch is its load, then its seeds, then the start.  O49 is assembled from these. -/

namespace Sys2Proof.Asm

/-- A stream that loads has loaded each of its lines. -/
theorem exists_loadLine_eq_ok {om : OpMap} {ts : List Text} {prog : List Loaded}
    (loads : loadProgram om ts = .ok prog) {k : Nat} {t : Text} (ht : ts[k]? = some t) :
    ∃ q, loadLine om k t = .ok q := by
  obtain ⟨sameLength, lineLoads⟩ := (loadFrom_eq_ok_iff om 0 ts prog).1 loads
  obtain ⟨hk, -⟩ := List.getElem?_eq_some_iff.1 ht
  have hq : prog[k]? = some prog[k] := List.getElem?_eq_getElem (sameLength ▸ hk)
  exact ⟨prog[k], Nat.zero_add k ▸ lineLoads k t prog[k] ht hq⟩

/-- A bad line anywhere fails the load of the whole stream. -/
theorem exists_loadProgram_eq_error {om : OpMap} {ts : List Text} {k : Nat} {t : Text}
    (ht : ts[k]? = some t) (bad : ∀ q, loadLine om k t ≠ .ok q) : ∃ f, loadProgram om ts = .error f := by
  cases loads : loadProgram om ts with
  | error f => exact ⟨f, rfl⟩
  | ok prog =>
    obtain ⟨q, hq⟩ := exists_loadLine_eq_ok loads ht
    exact absurd hq (bad q)

end Sys2Proof.Asm

namespace Sys2Proof.Machine

section
variable {om : OpMap} {p : Params} {ts : List Text} {initR : Vector Word 8} {seeds : List (Word × Word)}
  {d : Nat}

theorem launch_of_loadProgram_error {f : Failure} (h : Asm.loadProgram om ts = .error f) :
    launch om p ts initR seeds d = .error (.build f) := by
  simp [launch, h]

/-- A launch succeeds exactly where the stream loads and the seeds' addresses exist, with the start of that
run. -/
theorem launch_eq_ok_iff {s : State} : launch om p ts initR seeds d = .ok s ↔
    ∃ prog m, Asm.loadProgram om ts = .ok prog ∧ preseed p seeds [] = .ok m ∧
      State.start p prog initR m d = s := by
  cases loads : Asm.loadProgram om ts with
  | error f => simp [launch_of_loadProgram_error loads]
  | ok prog => cases seeded : preseed p seeds [] <;> simp [launch, loads, seeded]

end

/-- Settles O49: by what makes a launch succeed, a bad line failing the load. -/
theorem badStreamsNeverStart : Obligations.BadStreamsNeverStart := by
  refine ⟨fun om p ts initR seeds d k t ht bad => ?_, fun om p ts initR seeds d prog m loads seeded => ?_,
    fun om p ts initR seeds d s launched => ?_⟩
  · obtain ⟨f, hf⟩ := Asm.exists_loadProgram_eq_error ht bad
    have fails : launch om p ts initR seeds d = .error (.build f) := launch_of_loadProgram_error hf
    exact ⟨f, hf, by simp [fails], fun _ _ => fails⟩
  · exact ⟨_, launch_eq_ok_iff.2 ⟨prog, m, loads, seeded, rfl⟩⟩
  · obtain ⟨prog, m, loads, seeded, rfl⟩ := launch_eq_ok_iff.1 launched
    exact ⟨loads, rfl, rfl, rfl, rfl, rfl, seeded, fun n => runSteps_program n _⟩

end Sys2Proof.Machine
end

section
/-! PROOF. Every instruction is built by its mnemonic from its fields (spec/30_encoding.md R71 to R74), so what
the codec does to built instructions it does to all (R88, R91).  O1, O4 and O58 are assembled from these. -/

namespace Sys2Proof

/-- The fields an instruction holds, 0 in those outside its format (R13, R90). -/
def Instr.fields : Instr → Fields
  | .and rd rs rt | .or rd rs rt | .xor rd rs rt | .add rd rs rt | .sub rd rs rt | .slt rd rs rt
  | .sltu rd rs rt => ⟨rs, rt, rd, 0, 0, 0, 0⟩
  | .sll rt rs v | .srl rt rs v | .sra rt rs v | .ror rt rs v | .andi rt rs v | .candi rt rs v | .ori rt rs v
  | .xori rt rs v | .addi rt rs v | .slti rt rs v | .sltiu rt rs v | .lw rt rs v | .sw rt rs v =>
    ⟨rs, rt, 0, 0, v, 0, 0⟩
  | .beqz rs v | .bnez rs v | .bltz rs v | .bgez rs v | .bgtz rs v | .blez rs v | .jr rs v | .jalr rs v =>
    ⟨rs, 0, 0, 0, 0, v, 0⟩
  | .j v | .jal v | .set v | .sset v => ⟨0, 0, 0, 0, 0, 0, v⟩

/-- One case per constructor, each by the row of `build`. -/
theorem Instr.build_mnemonic_fields (i : Instr) : i.mnemonic.build i.fields = i := by cases i <;> rfl

/-- Settles O1: every instruction is a built one, and those decode from their words. -/
theorem decodeOfEncodeIsTheInstruction : Obligations.DecodeOfEncodeIsTheInstruction := by
  intro om hom i
  have built := decodeWord_encode_build hom i.mnemonic i.fields
  rwa [Instr.build_mnemonic_fields] at built

/-- Settles O4: the table of spec/95_test_vectors.md, word by word. -/
theorem decoderVectors : Obligations.DecoderVectors := by
  unfold Obligations.DecoderVectors
  decide

end Sys2Proof

namespace Sys2Proof.Machine

/-- Settles O58: CANDI is `writeReg` of the and; equal entries of `IMM5_SIGNED` extend its immediate as ANDI's. -/
theorem candiResult : Obligations.CandiResult := by
  refine fun s rt rs v =>
    ⟨⟨isWordOf_patternI .candi rfl rs rt v, s.writeReg_spec rt (s.reg rs &&& s.imm5 .candi v)⟩,
      fun sameEntry => ?_, rfl⟩
  have sameImmediate : s.imm5 .candi v = s.imm5 .andi v :=
    congrArg (fun signed : Bool => if signed then sext5 v else zext5 v) sameEntry
  exact congrArg (fun operand => s.writeReg rt (s.reg rs &&& operand)) sameImmediate

end Sys2Proof.Machine
end

section
/-! PROOF. The invariant of a run (spec/10_state.md R31, R34; spec/20_memory.md R52; spec/60_exceptions.md R213,
R221, R222): an instruction leaves memory or stores one word at an address that exists, and each end of a run
agrees with its status.  O11, O12, O14 and O19 are assembled from these. -/

namespace Sys2Proof.Machine

/-! ### What an instruction does to memory -/

/-- A next state of SW is its store: the address exists, the word there changed, no register did. -/
theorem exec_store {i : Instr} {s t : State} (hi : i.mnemonic = .sw) (h : exec i s = .next t) :
    ∃ ea v, memoryAddress i s = some ea ∧ s.params.addrValid ea = true ∧
      t = { s with mem := s.mem.write ea.toNat v, pc := s.pc + 1 } := by
  cases i
  case sw rt rs imm5 =>
    cases hv : s.params.addrValid (s.effectiveAddress .sw rs imm5) with
    | false => cases (State.storeWord_invalid (s.reg rt) hv).symm.trans h
    | true =>
      cases (State.storeWord_eq (s.reg rt) hv).symm.trans h
      exact ⟨_, s.reg rt, rfl, hv, rfl⟩
  all_goals cases hi

/-- An instruction leaves memory as it was or stores one word at an address that exists. -/
theorem exec_memory {i : Instr} {s t : State} (h : exec i s = .next t) :
    t.mem = s.mem ∨ ∃ a v, s.params.addrValid a = true ∧ t.mem = s.mem.write a.toNat v := by
  by_cases hi : i.mnemonic = .sw
  · obtain ⟨ea, v, -, hv, rfl⟩ := exec_store hi h
    exact Or.inr ⟨ea, v, hv, rfl⟩
  · exact Or.inl (exec_sameMemory hi h).1

/-- What the invariant says of memory: the canonical form, over addresses that exist. -/
def Memory.Ok (m : Memory) (p : Params) : Prop := m.wf = true ∧ m.within p = true

theorem Memory.Ok.write {m : Memory} {p : Params} (hm : m.Ok p) {a : Word} (ha : p.addrValid a = true)
    (v : Word) : Memory.Ok (m.write a.toNat v) p :=
  ⟨Memory.wf_write hm.1 a.isLt v, Memory.within_write hm.2 (by simpa using ha) v⟩

theorem exec_memory_ok {i : Instr} {s t : State} (hm : s.mem.Ok s.params) (h : exec i s = .next t) :
    t.mem.Ok t.params := by
  obtain ⟨hparams, -⟩ := exec_sameRun h
  rw [hparams]
  obtain same | ⟨a, v, ha, stored⟩ := exec_memory h
  · rwa [same]
  · rw [stored]
    exact hm.write ha v

/-! ### The invariant, step by step -/

theorem State.inv_iff {s : State} : s.Inv ↔ s.mem.Ok s.params ∧ s.StatusOk := and_assoc.symm

theorem State.statusOk_of_running {s : State} (h : s.status = .running) : s.StatusOk := by
  simp [State.StatusOk, h]

theorem State.inv_of_running {s : State} (hm : s.mem.Ok s.params) (h : s.status = .running) : s.Inv :=
  State.inv_iff.2 ⟨hm, State.statusOk_of_running h⟩

theorem State.inv_killRun {s : State} (hk : s.kill = true) : s.killRun.Inv :=
  State.inv_iff.2 ⟨Memory.ofCells_ok s.params _, hk, Nat.succ_pos s.draws⟩

theorem State.inv_halt {s : State} (hm : s.mem.Ok s.params) (hp : s.pcInProgram = false) : s.halt.Inv :=
  State.inv_iff.2 ⟨hm, hp⟩

theorem State.inv_cancelRun {s : State} (hm : s.mem.Ok s.params) (hp : s.pcInProgram = true)
    (hc : s.cancel = true) : s.cancelRun.Inv :=
  State.inv_iff.2 ⟨hm, hp, hc⟩

/-- A fault of an instruction is precise, so the state that records it agrees with its status. -/
theorem State.inv_recordFault {s : State} (hm : s.mem.Ok s.params) (hp : s.pcInProgram = true) {i : Instr}
    {e : Fault} (h : exec i s = .fault e) : (s.recordFault e).Inv := by
  obtain ⟨ea, -, missing, rfl⟩ := (exec_eq_fault_iff i s e).1 h
  exact State.inv_iff.2 ⟨hm, hp, rfl, missing⟩

theorem State.inv_settle_exec {i : Instr} {s t : State} (hm : s.mem.Ok s.params) (he : s.Executing)
    (h : s.settle (exec i s) = .next t) : t.Inv := by
  obtain ⟨hr, -, -, hp⟩ := he
  cases hexec : exec i s with
  | next u =>
    rw [hexec] at h
    cases h
    obtain ⟨-, -, hstatus, -⟩ := exec_sameRun hexec
    exact State.inv_of_running (exec_memory_ok hm hexec) (hstatus.trans hr)
  | fault e =>
    rw [hexec] at h
    cases h
    exact State.inv_recordFault hm hp hexec
  | refused r =>
    rw [hexec] at h
    cases h

/-- Settles O12: one lemma for each way a step can end or go on. -/
theorem stepKeepsTheInvariant : Obligations.StepKeepsTheInvariant := by
  intro s t inv h
  obtain ⟨hm, -⟩ := State.inv_iff.1 inv
  obtain ⟨-, hk, hs⟩ | ⟨-, -, hp, hs⟩ | ⟨-, -, hp, hc, hs⟩ | ⟨he, p, -, hs⟩ | ⟨e, -, hs⟩ | ⟨-, hs⟩ :=
    step_cases s <;> rw [hs] at h
  case inr.inr.inr.inl => exact State.inv_settle_exec hm he h
  all_goals cases h
  · exact State.inv_killRun hk
  · exact State.inv_halt hm hp
  · exact State.inv_cancelRun hm hp hc
  · exact inv

/-- Settles O11: pre-seeding keeps what the empty memory has, and a start is running. -/
theorem runsStartInTheInvariant : Obligations.RunsStartInTheInvariant :=
  ⟨State.inv_of_running ⟨rfl, rfl⟩ rfl,
    fun _ _ _ _ _ _ seeded => State.inv_of_running (preseed_ok seeded ⟨rfl, rfl⟩) rfl⟩

/-- Settles O10: the reset state is a start, and its empty program has no step 0. -/
theorem resetRunsTheEmptyProgram : Obligations.ResetRunsTheEmptyProgram :=
  ⟨_, _, _, _, State.reset_eq_start, State.reset.halt, step_of_pcOutside rfl rfl rfl, rfl, rfl⟩

theorem step_of_kill {s : State} (hr : s.status = .running) (hk : s.kill = true) :
    step s = .next s.killRun := by
  simp [step, State.stepRun, hr, hk]

/-- Settles O19: the step of a killed run, whose free memory is in canonical form. -/
theorem killEndsTheRun : Obligations.KillEndsTheRun := fun s hr hk =>
  ⟨s.killRun, step_of_kill hr hk, rfl, rfl, rfl, (Memory.ofCells_ok s.params _).1⟩

/-! ### O14 -/

theorem Memory.read_head (k : Nat) (w : Word) (m : Memory) : Memory.read ((k, w) :: m) k = w := if_pos rfl

/-- Below its first address a canonical memory holds nothing, and at it something. -/
theorem Memory.head_le_of_read_eq {lo lo' : Option Nat} {k k' : Nat} {w w' : Word} {m m' : Memory}
    (hm : Memory.wfAbove lo ((k, w) :: m) = true) (hm' : Memory.wfAbove lo' ((k', w') :: m') = true)
    (alike : ∀ a, Memory.read ((k, w) :: m) a = Memory.read ((k', w') :: m') a) : k' ≤ k := by
  obtain ⟨-, -, listed, -⟩ := (Memory.wfAbove_cons lo k w m).1 hm
  obtain ⟨-, cells⟩ := (Memory.wfAbove_cons lo' k' w' m').1 hm'
  by_contra below
  have above : Memory.wfAbove (some k) ((k', w') :: m') = true :=
    (Memory.wfAbove_cons (some k) k' w' m').2 ⟨fun _ e => by cases e; omega, cells⟩
  have empty : Memory.read ((k', w') :: m') k = Memory.unlisted := Memory.read_of_wfAbove above (Nat.le_refl k)
  rw [← alike, Memory.read_head] at empty
  exact listed empty

/-- Two canonical memories that read alike begin with the same cell, and so do their tails. -/
theorem Memory.eq_of_read_eq {lo lo' : Option Nat} {m m' : Memory} (hm : Memory.wfAbove lo m = true)
    (hm' : Memory.wfAbove lo' m' = true) (alike : ∀ a, m.read a = m'.read a) : m = m' := by
  induction m generalizing lo lo' m' with
  | nil =>
    cases m' with
    | nil => rfl
    | cons c m' =>
      obtain ⟨k, w⟩ := c
      obtain ⟨-, -, listed, -⟩ := (Memory.wfAbove_cons lo' k w m').1 hm'
      exact absurd ((Memory.read_head k w m').symm.trans (alike k).symm) listed
  | cons c m ih =>
    obtain ⟨k, w⟩ := c
    obtain ⟨-, -, listed, tail⟩ := (Memory.wfAbove_cons lo k w m).1 hm
    cases m' with
    | nil => exact absurd ((Memory.read_head k w m).symm.trans (alike k)) listed
    | cons c' m' =>
      obtain ⟨k', w'⟩ := c'
      obtain ⟨-, -, -, tail'⟩ := (Memory.wfAbove_cons lo' k' w' m').1 hm'
      obtain rfl : k = k' := Nat.le_antisymm
        (Memory.head_le_of_read_eq hm' hm fun a => (alike a).symm) (Memory.head_le_of_read_eq hm hm' alike)
      obtain rfl : w = w' := by
        rw [← Memory.read_head k w m, alike, Memory.read_head]
      have tailsAlike (a : Nat) : Memory.read m a = Memory.read m' a := by
        by_cases atHead : a ≤ k
        · rw [Memory.read_of_wfAbove tail atHead, Memory.read_of_wfAbove tail' atHead]
        · simpa [Memory.read, (show a ≠ k by omega)] using alike a
      rw [ih tail tail' tailsAlike]

/-- Settles O14: the canonical form is that of a list above no bound. -/
theorem canonicalMemoriesAreDeterminedByTheirWords : Obligations.CanonicalMemoriesAreDeterminedByTheirWords :=
  fun _ _ => Memory.eq_of_read_eq

end Sys2Proof.Machine
end

section
/-! PROOF. What the assembler writes, the loader reads (spec/30_encoding.md R92, R107 to R111): a hex token's
value is its word, and a token of an encoded instruction loads as that instruction.  O16, O50 and O51 are
assembled from these. -/

namespace Sys2Proof.Asm

/-! ### Hex tokens -/

theorem hexDigitValue_hexDigit : ∀ n < 16, hexDigitValue (hexDigit n) = some n := by decide

theorem hexDigit_not_small : ∀ n < 16, ¬ (97 ≤ (hexDigit n).toNat ∧ (hexDigit n).toNat ≤ 122) := by decide

theorem hexValue_append_hexDigit {t : Text} {n d : Nat} (ht : hexValue t = some n) (hd : d < 16) :
    hexValue (t ++ [hexDigit d]) = some (16 * n + d) := by
  rw [hexValue_append, ht, hexDigitValue_hexDigit d hd]
  rfl

/-- Behind a token of value 0, the four digits of a word have its value. -/
theorem hexValue_append_hexCompact {t : Text} (ht : hexValue t = some 0) (w : InstrWord) :
    hexValue (t ++ hexCompact w) = some w.toNat := by
  have bound := w.isLt
  have one := hexValue_append_hexDigit ht (d := w.toNat / 4096) (by omega)
  have two := hexValue_append_hexDigit one (d := w.toNat / 256 % 16) (by omega)
  have three := hexValue_append_hexDigit two (d := w.toNat / 16 % 16) (by omega)
  have four := hexValue_append_hexDigit three (d := w.toNat % 16) (by omega)
  have number : 16 * (16 * (16 * (16 * 0 + w.toNat / 4096) + w.toNat / 256 % 16) + w.toNat / 16 % 16) +
      w.toNat % 16 = w.toNat := by omega
  rw [number] at four
  simpa [hexCompact] using four

theorem hexValue_hexCompact (w : InstrWord) : hexValue (hexCompact w) = some w.toNat :=
  hexValue_append_hexCompact (t := []) rfl w

theorem hexValue_hexFull (w : InstrWord) : hexValue (hexFull w) = some w.toNat :=
  hexValue_append_hexCompact (t := ['0', '0', '0', '0']) (by decide) w

theorem hexFull_not_small (w : InstrWord) : ∀ c ∈ hexFull w, ¬ (97 ≤ c.toNat ∧ c.toNat ≤ 122) := by
  have bound := w.isLt
  simp only [hexFull, hexCompact, List.forall_mem_append, List.forall_mem_cons]
  exact ⟨by simp, hexDigit_not_small _ (by omega), hexDigit_not_small _ (by omega),
    hexDigit_not_small _ (by omega), hexDigit_not_small _ (by omega), by simp⟩

/-- Settles O50: the shapes by the definitions, the values digit by digit. -/
theorem hexTokensReadBack : Obligations.HexTokensReadBack := fun w =>
  ⟨rfl, rfl, rfl, rfl, hexValue_hexFull w, hexValue_hexCompact w, hexFull_not_small w⟩

/-! ### A token and its instruction -/

@[simp] theorem length_hexFull (w : InstrWord) : (hexFull w).length = 8 := rfl

theorem loadLine_hexFull (om : OpMap) (k : Nat) (w : InstrWord) :
    loadLine om k (hexFull w) = decodeRecord om w k k := by
  have small : ¬ 0xFFFF < w.toNat := by have bound := w.isLt; omega
  rw [loadLine_of_value om k (length_hexFull w) (hexValue_hexFull w), if_neg small,
    BitVec.ofNat_toNat, BitVec.setWidth_eq]

theorem decodeRecord_eq_ok {om : OpMap} {w : InstrWord} {line step : Nat} {p : Loaded}
    (h : decodeRecord om w line step = .ok p) :
    decodeWord om w = some p.instr ∧ p.lineNo = line ∧ p.stepNo = step := by
  have decoded := decodeWord_of_decodeRecord h
  rw [decodeRecord_of_decodeWord decoded] at h
  have built := Except.ok.inj h
  exact ⟨decoded, congrArg Loaded.lineNo built.symm, congrArg Loaded.stepNo built.symm⟩

/-! ### Pass 2 -/

/-- What follows a step that may fail succeeds exactly where the step does and the rest does with its result. -/
theorem bind_eq_ok_iff {ε α β : Type} {x : Except ε α} {f : α → Except ε β} {b : β} :
    (x >>= f) = .ok b ↔ ∃ a, x = .ok a ∧ f a = .ok b := by
  cases x <;> simp [bind, Except.bind]

/-- Every word of pass 2 is some instruction's. -/
theorem exists_encode_of_mem_pass2 {om : OpMap} {sg : Imm5Signed} {ls : Labels} {rs : List Record}
    {ws : List InstrWord} (h : pass2 om sg ls rs = .ok ws) : ∀ w ∈ ws, ∃ i, w = encode om i := by
  induction rs generalizing ws with
  | nil =>
    cases h
    simp
  | cons r rs ih =>
    simp only [pass2, bind_eq_ok_iff] at h
    obtain ⟨r', -, w, encoded, ws', rest, same⟩ := h
    cases same
    exact List.forall_mem_cons.2 ⟨⟨r'.toInstr, encodeRecord_eq_ok encoded⟩, ih rest⟩

theorem exists_encode_of_mem_assembleWords {om : OpMap} {sg : Imm5Signed} {src : List Text}
    {ws : List InstrWord} (h : assembleWords om sg src = .ok ws) : ∀ w ∈ ws, ∃ i, w = encode om i := by
  obtain ⟨p, -, second⟩ := bind_eq_ok_iff.1 h
  exact exists_encode_of_mem_pass2 second

theorem assemble_eq_ok {om : OpMap} {sg : Imm5Signed} {src hex : List Text} (h : assemble om sg src = .ok hex) :
    ∃ ws, assembleWords om sg src = .ok ws ∧ hex = ws.map hexFull := by
  unfold assemble at h
  cases hws : assembleWords om sg src with
  | error f =>
    rw [hws] at h
    cases h
  | ok ws =>
    rw [hws] at h
    cases h
    exact ⟨ws, rfl, rfl⟩

/-! ### The stream -/

/-- A stream of tokens of instructions loads: no line of it can be the first bad one. -/
theorem exists_loadProgram_map_hexFull {om : OpMap} (hom : om.Consistent) {ws : List InstrWord}
    (encoded : ∀ w ∈ ws, ∃ i, w = encode om i) : ∃ prog, loadProgram om (ws.map hexFull) = .ok prog := by
  cases h : loadProgram om (ws.map hexFull) with
  | ok prog => exact ⟨prog, rfl⟩
  | error f =>
    obtain ⟨j, t, ht, bad, -⟩ := (loadFrom_eq_error_iff om 0 _ f).1 h
    obtain ⟨w, hw, rfl⟩ := List.mem_map.1 (List.mem_of_getElem? ht)
    obtain ⟨i, rfl⟩ := encoded w hw
    have decodes := decodeOfEncodeIsTheInstruction om hom i
    rw [loadLine_hexFull, decodeRecord_of_decodeWord decodes] at bad
    cases bad

/-- What a stream of tokens loads to, record by record. -/
theorem loadProgram_map_hexFull {om : OpMap} {ws : List InstrWord} {prog : List Loaded}
    (loads : loadProgram om (ws.map hexFull) = .ok prog) :
    prog.length = ws.length ∧ ∀ (k : Nat) (p : Loaded), prog[k]? = some p →
      p.lineNo = k ∧ p.stepNo = k ∧ ws[k]? = some (encode om p.instr) := by
  obtain ⟨sameLength, lineLoads⟩ := (loadFrom_eq_ok_iff om 0 _ prog).1 loads
  rw [List.length_map] at sameLength
  refine ⟨sameLength, fun k p hp => ?_⟩
  obtain ⟨hk, -⟩ := List.getElem?_eq_some_iff.1 hp
  have hw : ws[k]? = some ws[k] := List.getElem?_eq_getElem (sameLength ▸ hk)
  have line := lineLoads k (hexFull ws[k]) p (by rw [List.getElem?_map, hw]; rfl) hp
  rw [Nat.zero_add, loadLine_hexFull] at line
  obtain ⟨decoded, hline, hstep⟩ := decodeRecord_eq_ok line
  exact ⟨hline, hstep, by rw [hw, encode_of_decodeWord decoded]⟩

/-- Settles O51: every assembled word is an instruction's, so its token loads, and as that instruction. -/
theorem assembledStreamsLoad : Obligations.AssembledStreamsLoad := by
  intro om sg src hex hom h
  obtain ⟨ws, words, rfl⟩ := assemble_eq_ok h
  obtain ⟨prog, loads⟩ := exists_loadProgram_map_hexFull hom (exists_encode_of_mem_assembleWords words)
  exact ⟨ws, prog, words, rfl, loads, loadProgram_map_hexFull loads⟩

/-- A line that loads is a token of a 16-bit word that decodes to the record's instruction. -/
theorem loadLine_eq_ok {om : OpMap} {k : Nat} {t : Text} {p : Loaded} (h : loadLine om k t = .ok p) :
    ∃ v, hexValue t = some v ∧ v < 2 ^ 16 ∧ decodeWord om (BitVec.ofNat 16 v) = some p.instr := by
  by_cases hlen : t.length = 8
  · cases hv : hexValue t with
    | none =>
      rw [loadLine_of_noValue om k (Or.inr hv)] at h
      cases h
    | some v =>
      rw [loadLine_of_value om k hlen hv] at h
      split at h
      · cases h
      · exact ⟨v, rfl, by omega, decodeWord_of_decodeRecord h⟩
  · rw [loadLine_of_noValue om k (Or.inl hlen)] at h
    cases h

end Sys2Proof.Asm

namespace Sys2Proof.Machine

/-! ### A step of a loaded program -/

theorem step_of_exec_next {s t : State} {p : Loaded} (h : s.Executing) (hf : s.fetch = some p)
    (he : exec p.instr s = .next t) : step s = .next t := by
  rw [step_of_executing h hf, he]
  rfl

/-- Settles O15: an executing step is `exec` of the fetched record, settled. -/
theorem stepRunsTheFetchedInstruction : Obligations.StepRunsTheFetchedInstruction := fun _ _ h hf =>
  ⟨fun _ => step_of_exec_next h hf, fun _ he => step_of_exec_fault he h hf rfl⟩

theorem State.fetch_eq_some_iff {s : State} {p : Loaded} :
    s.fetch = some p ↔ s.pcInProgram = true ∧ s.program[s.pc.toNat]? = some p := by
  simp [State.fetch]

/-- Settles O16: the record at the PC was loaded from the line at the PC. -/
theorem stepRunsTheLoadedWord : Obligations.StepRunsTheLoadedWord := by
  rintro om ts s prog loads rfl h
  have ⟨_, _, _, inside⟩ := h
  obtain ⟨p, hf⟩ := State.fetch_eq_some inside
  obtain ⟨-, hp⟩ := State.fetch_eq_some_iff.1 hf
  obtain ⟨sameLength, lineLoads⟩ := (Asm.loadFrom_eq_ok_iff om 0 ts s.program).1 loads
  obtain ⟨hk, -⟩ := List.getElem?_eq_some_iff.1 hp
  have ht : ts[s.pc.toNat]? = some ts[s.pc.toNat] := List.getElem?_eq_getElem (sameLength ▸ hk)
  obtain ⟨v, hv, small, decoded⟩ := Asm.loadLine_eq_ok (lineLoads _ _ p ht hp)
  exact ⟨_, v, p.instr, ht, hv, small, decoded, ⟨p, hf, rfl⟩, stepRunsTheFetchedInstruction s p h hf⟩

end Sys2Proof.Machine
end

section
/-! PROOF. Statements about all instructions (spec/10_state.md section 6): each completes but for its memory
address, writes at most its one register or word, and does what the datapath of R32 does at its ports.  O26, O28,
O29 and O47 are assembled from these. -/

namespace Sys2Proof.Machine

/-! ### Completion -/

/-- A commit whose store, if it has one, is at an address that exists gives a next state. -/
theorem State.exists_commit_eq_next {s : State} {e : Effect}
    (valid : ∀ a v, e.memWrite = some (a, v) → s.params.addrValid a = true) : ∃ t, s.commit e = .next t := by
  obtain ⟨a, v, hw, missing, -⟩ | ⟨m, -, hc⟩ := s.commit_cases e
  · simp [valid a v hw] at missing
  · exact ⟨_, hc⟩

theorem State.exists_commit_eq_next_of_noStore {s : State} {e : Effect} (noStore : e.memWrite = none) :
    ∃ t, s.commit e = .next t :=
  State.exists_commit_eq_next fun a v hw => by simp [noStore] at hw

theorem exists_exec_eq_next {i : Instr} {s : State}
    (valid : ∀ ea, memoryAddress i s = some ea → s.params.addrValid ea = true) : ∃ t, exec i s = .next t := by
  obtain ⟨r, v, he, -⟩ | ⟨r, a, he, ha, -⟩ | ⟨a, v, he, ha, -⟩ | ⟨b, n, he, -⟩ | ⟨n, he, -⟩ | ⟨n, he, -⟩ :=
    exec_cases i s <;> rw [he]
  case inr.inl =>
    obtain ⟨t, ht, -⟩ := State.loadReg_valid (r := r) (valid a ha)
    exact ⟨t, ht⟩
  case inr.inr.inl => exact ⟨_, State.storeWord_eq v (valid a ha)⟩
  all_goals exact State.exists_commit_eq_next_of_noStore rfl

/-- Settles O26: each operation completes, the load and the store at an address that exists. -/
theorem everyInstructionCompletes : Obligations.EveryInstructionCompletes := by
  intro i s valid
  obtain ⟨t, ht⟩ := exists_exec_eq_next valid
  exact ⟨t, ht, exec_sameRun ht⟩

/-! ### Writes -/

/-- The register an instruction writes is its destination field, the accumulator or the link register. -/
theorem writtenRegister_cases {i : Instr} {r : RegIdx} (h : writtenRegister i = some r) :
    namedDest i = some r ∨ (r = 0 ∧ (i.mnemonic = .set ∨ i.mnemonic = .sset)) ∨
      (r = 7 ∧ (i.mnemonic = .jal ∨ i.mnemonic = .jalr)) := by
  cases i
  case set => exact Or.inr (Or.inl ⟨(Option.some.inj h).symm, Or.inl rfl⟩)
  case sset => exact Or.inr (Or.inl ⟨(Option.some.inj h).symm, Or.inr rfl⟩)
  case jal => exact Or.inr (Or.inr ⟨(Option.some.inj h).symm, Or.inl rfl⟩)
  case jalr => exact Or.inr (Or.inr ⟨(Option.some.inj h).symm, Or.inr rfl⟩)
  all_goals exact Or.inl h

/-- Settles O28: a register that changed is the one the instruction writes. -/
theorem registersChangeOnlyAsNamed : Obligations.RegistersChangeOnlyAsNamed := fun _ _ _ _ h changed =>
  writtenRegister_cases (by_contra fun other => changed (exec_otherRegister h other))

/-- Settles O29: SW is a store at its address, and every other instruction keeps memory. -/
theorem atMostOneWriteOfEachKind : Obligations.AtMostOneWriteOfEachKind := by
  intro i s t h
  have store (hi : i.mnemonic = .sw) : (∀ q, t.reg q = s.reg q) ∧ ∃ ea, memoryAddress i s = some ea ∧
      ∀ b, b ≠ ea.toNat → t.mem.read b = s.mem.read b := by
    obtain ⟨ea, v, hea, -, rfl⟩ := exec_store hi h
    exact ⟨fun _ => rfl, ea, hea, fun b hb => Memory.read_write_ne v hb⟩
  refine ⟨fun q => exec_otherRegister h, fun hi => exec_sameMemory hi h, store,
    fun _ _ _ hi => by rw [hi]; rfl, ?_, exec_sameRun h⟩
  by_cases hi : i.mnemonic = .sw
  · exact Or.inl (store hi).1
  · exact Or.inr (exec_sameMemory hi h)

/-! ### The datapath -/

section
variable (s : State) (addr : Word)

/-- The controller's use of the ports of a result, a jump or a link is the operation of that name. -/
theorem State.applyExu_result (r : RegIdx) (v : Word) : s.applyExu addr (.result s.pc r v) = s.writeReg r v := rfl

theorem State.applyExu_goTo (n : Word) : s.applyExu addr (.goTo n) = s.jumpTo n := rfl

theorem State.applyExu_link (n : Word) : s.applyExu addr (.link s.pc n) = s.linkAndJump n := rfl

/-- A branch goes to the one next PC that the datapath selects by its condition. -/
theorem State.branch_eq_jumpTo {p : Prop} [Decidable p] {taken : Bool} (decides : taken = decide p) (n : Word) :
    s.branch taken n = s.jumpTo (if p then n else s.pc + 1) := by
  subst decides
  by_cases hp : p <;> simp [State.branch, State.jumpTo, State.commit, Effect.applyRegs, hp]

theorem State.branch_eq_jumpTo_of_not {p : Prop} [Decidable p] {taken : Bool} (decides : taken = !decide p)
    (n : Word) : s.branch taken n = s.jumpTo (if p then s.pc + 1 else n) := by
  rw [State.branch_eq_jumpTo s (decides.trans decide_not.symm), ite_not]

theorem State.applyExu_load (r : RegIdx) :
    s.applyExu addr (if s.params.addrValid addr
      then ⟨s.pc + 1, some (r, s.mem.read addr.toNat), some addr, none, false⟩
      else ⟨s.pc, none, some addr, none, true⟩) = s.loadReg r addr := by
  obtain ⟨hv, hl⟩ | ⟨hv, hl⟩ := s.loadReg_cases r addr <;> rw [hl, hv] <;> rfl

theorem State.applyExu_store (v : Word) :
    s.applyExu addr (if s.params.addrValid addr then ⟨s.pc + 1, none, none, some (addr, v), false⟩
      else ⟨s.pc, none, none, some (addr, v), true⟩) = s.storeWord addr v := by
  cases hv : s.params.addrValid addr
  · rw [State.storeWord_invalid v hv]
    rfl
  · rw [State.storeWord_eq v hv]
    rfl

theorem exuLtu_eq (a b : Word) : exuLtu s.params a b = boolWord (s.ltu a b) := by
  unfold exuLtu State.ltu
  split <;> rfl

end

/-- The branch predicates by the sign and zero tests of the datapath. -/
theorem isNeZ_eq_not (v : Word) : isNeZ v = !decide (v = 0) := decide_not

theorem isLtZ_eq_msb (v : Word) : isLtZ v = decide (v.msb = true) := by
  rw [isLtZ_eq, BitVec.msb_eq_toInt, Bool.decide_eq_true]

theorem isGeZ_eq_not_msb (v : Word) : isGeZ v = !decide (v.msb = true) := by
  rw [← isLtZ_eq_msb, isGeZ, isLtZ]

theorem isLeZ_eq_msb_or (v : Word) : isLeZ v = decide (v.msb = true ∨ v = 0) := by
  rw [isLeZ_eq]
  apply decide_eq_decide.2
  rw [BitVec.msb_eq_toInt, decide_eq_true_eq, ← BitVec.toInt_inj]
  exact Int.le_iff_lt_or_eq

theorem isGtZ_eq_not_msb_or (v : Word) : isGtZ v = !decide (v.msb = true ∨ v = 0) := by
  rw [← isLeZ_eq_msb_or, isLeZ, Bool.not_not, isGtZ]

/-- Settles O47: mnemonic by mnemonic, the ports carry what the operation of the meaning does. -/
theorem datapathAgreesWithTheInstructions : Obligations.DatapathAgreesWithTheInstructions := by
  intro m f s
  cases m
  case lw => exact (s.applyExu_load _ f.rt).symm
  case sw => exact (s.applyExu_store _ _).symm
  case sltu => exact congrArg (s.writeReg f.rd) (exuLtu_eq s _ _).symm
  case sltiu => exact congrArg (s.writeReg f.rt) (exuLtu_eq s _ _).symm
  case ror => exact congrArg (s.writeReg f.rt) (rotateRight_eq _ _)
  case beqz => exact s.branch_eq_jumpTo rfl _
  case bnez => exact s.branch_eq_jumpTo_of_not (isNeZ_eq_not _) _
  case bltz => exact s.branch_eq_jumpTo (isLtZ_eq_msb _) _
  case bgez => exact s.branch_eq_jumpTo_of_not (isGeZ_eq_not_msb _) _
  case bgtz => exact s.branch_eq_jumpTo_of_not (isGtZ_eq_not_msb_or _) _
  case blez => exact s.branch_eq_jumpTo (isLeZ_eq_msb_or _) _
  case jr | j => exact (s.applyExu_goTo _ _).symm
  case jalr | jal => exact (s.applyExu_link _ _).symm
  all_goals exact (s.applyExu_result _ _ _).symm

end Sys2Proof.Machine
end

section
/-! PROOF. Small statements about runs: a jump to itself (spec/43_branch_jump.md R188), a call and its return
(R190), and the host's view of registers and memory (spec/10_state.md R26, spec/60_exceptions.md R224).  O23,
O46, O57 and O59 are assembled from these. -/

namespace Sys2Proof.Machine

/-! ### O23 -/

theorem runSteps_of_fixed {s : State} (h : step s = .next s) (n : Nat) : runSteps n s = s := by
  induction n with
  | zero => rfl
  | succ n ih => rw [runSteps_succ_of_next h, ih]

theorem exec_j_zero (s : State) : exec (.j 0) s = .next s := by
  have here : s.jumpTarget 0 = s.pc := by simp [State.jumpTarget, sext11]
  have jumps : exec (.j 0) s = .next { s with pc := s.jumpTarget 0 } := rfl
  rw [jumps, here]

/-- Settles O23: the step of a jump to itself stands still. -/
theorem selfJumpNeverHalts : Obligations.SelfJumpNeverHalts := fun s _ h hf hj =>
  runSteps_of_fixed (step_of_exec_next h hf (hj ▸ exec_j_zero s))

/-! ### O46 -/

theorem exec_jr_zero (u : State) (r : RegIdx) : ∃ v, exec (.jr r 0) u = .next v ∧ PcStep u v (u.reg r) := by
  have target : u.registerTarget r 0 = u.reg r := by simp [State.registerTarget, sext8]
  exact target ▸ u.jumpTo_spec (u.registerTarget r 0)

/-- Settles O46: both calls are `linkAndJump`, and `jr $7, 0` goes where register 7 says. -/
theorem callsReturnToTheNextStep : Obligations.CallsReturnToTheNextStep := by
  intro s i call
  obtain ⟨n, he⟩ : ∃ n, exec i s = s.linkAndJump n := by
    obtain ⟨d, rfl⟩ | ⟨rs, d, rfl⟩ := call <;> exact ⟨_, rfl⟩
  obtain ⟨t, ht, link, -⟩ := s.linkAndJump_spec n
  refine ⟨t, he.trans ht, link, fun u holds => ?_⟩
  rw [← link, ← holds]
  exact exec_jr_zero u 7

/-! ### O57 -/

theorem State.report_of_ended {s : State} (h : s.Ended) :
    s.report = some ⟨s.status, s.pc, (List.range 8).map fun i => (i, s.reg (BitVec.ofNat 3 i))⟩ := if_neg h

theorem State.hostReadMem_of_ended {s : State} (h : s.Ended) (a : Word) : s.hostReadMem a = some (s.memRead a) :=
  if_neg h

/-- Settles O57: the report and the memory call by whether the run has ended. -/
theorem endedRunsAreReported : Obligations.EndedRunsAreReported := by
  refine fun s => ⟨fun ended => ⟨_, State.report_of_ended ended, rfl, rfl, rfl, fun r => ?_, fun a valid => ?_⟩,
    fun running => ?_⟩
  · have hr : r.toNat < 8 := r.isLt
    simp [hr]
  · rw [State.hostReadMem_of_ended ended, State.memRead_valid valid]
  · have running : s.status = .running := not_not.1 running
    exact ⟨if_pos running, fun _ => if_pos running⟩

/-! ### O59 -/

theorem hostIndexOk_toNat (r : RegIdx) : hostIndexOk r.toNat = true := by
  have hr := r.isLt
  simp only [hostIndexOk, Bool.and_eq_true, decide_eq_true_eq]
  omega

theorem State.hostGet_toNat (s : State) (r : RegIdx) : s.hostGet r.toNat = .ok (s.reg r) := by
  simp [State.hostGet, hostIndexOk_toNat]

theorem State.hostSet_toNat (s : State) (r : RegIdx) (v : Word) : s.hostSet r.toNat v = .ok (s.setReg r v) := by
  simp [State.hostSet, hostIndexOk_toNat]

/-- Settles O59: get and set of a register's own index are `reg` and `setReg`. -/
theorem hostReachesEveryRegister : Obligations.HostReachesEveryRegister := fun s r v =>
  ⟨s.hostGet_toNat r, s.setReg r v, s.hostSet_toNat r v, s.reg_setReg_same r v,
    fun _ other => s.reg_setReg_ne v other, rfl, ⟨rfl, fun _ => rfl⟩, ⟨rfl, rfl, rfl, rfl, rfl, rfl⟩,
    fun q => State.hostGet_toNat _ q⟩

end Sys2Proof.Machine
end

section
/-! PROOF. Rendering and parsing (spec/30_encoding.md R94 to R100, R112): each token the renderer writes is read
back as what it was written from, and the blanks and commas around the tokens are the ones the parser drops.
O55 and O56 are assembled from these. -/

namespace Sys2Proof.Asm

/-! ### Blanks -/

theorem trim_eq_nil_iff (t : Text) : trim t = [] ↔ ∀ c ∈ t, isBlank c = true := by
  have ends : trim t = [] ↔ ∀ c ∈ t.dropWhile isBlank, isBlank c = true := by
    simp only [trim, List.reverse_eq_nil_iff, List.dropWhile_eq_nil_iff, List.mem_reverse]
  rw [ends, ← List.dropWhile_eq_nil_iff, List.dropWhile_idempotent, List.dropWhile_eq_nil_iff]

theorem trim_cons_of_blank {c : Char} (h : isBlank c = true) (t : Text) : trim (c :: t) = trim t := by
  simp [trim, h]

/-- Blanks at the front are dropped only where there are some. -/
theorem dropWhile_isBlank_append {t : Text} (hne : t ≠ []) (h : ∀ c ∈ t, isBlank c = false) (u : Text) :
    (t ++ u).dropWhile isBlank = t ++ u := by
  cases t with
  | nil => exact absurd rfl hne
  | cons c cs => simp [h c List.mem_cons_self]

theorem trim_of_noBlank {t : Text} (h : ∀ c ∈ t, isBlank c = false) : trim t = t := by
  have keeps (u : Text) (hu : ∀ c ∈ u, isBlank c = false) : u.dropWhile isBlank = u := by
    cases u with
    | nil => rfl
    | cons c cs => simp [hu c List.mem_cons_self]
  rw [trim, keeps t h, keeps t.reverse fun c hc => h c (List.mem_reverse.1 hc), List.reverse_reverse]

/-! ### Operand lists -/

/-- What may stand between two commas of an operand list: a text with neither blank nor comma in it. -/
def IsToken (t : Text) : Prop := t ≠ [] ∧ ∀ c ∈ t, isBlank c = false ∧ c ≠ ','

theorem IsToken.noBlank {t : Text} (h : IsToken t) : ∀ c ∈ t, isBlank c = false := fun c hc => (h.2 c hc).1

theorem IsToken.noComma {t : Text} (h : IsToken t) : ',' ∉ t := fun hc => (h.2 _ hc).2 rfl

theorem splitOn_of_not_mem {sep : Char} {t : Text} (h : sep ∉ t) : splitOn sep t = [t] := by
  induction t with
  | nil => rfl
  | cons c cs ih =>
    obtain ⟨hc, hcs⟩ := not_or.1 (mt List.mem_cons.2 h)
    simp [splitOn, Ne.symm hc, ih hcs]

theorem splitOn_append_cons {sep : Char} {t : Text} (h : sep ∉ t) (u : Text) :
    splitOn sep (t ++ sep :: u) = t :: splitOn sep u := by
  induction t with
  | nil => simp [splitOn]
  | cons c cs ih =>
    obtain ⟨hc, hcs⟩ := not_or.1 (mt List.mem_cons.2 h)
    simp [splitOn, Ne.symm hc, ih hcs]

/-- Tokens written with a comma and a blank between them are split at the commas. -/
theorem splitOn_intercalate {t : Text} {ts : List Text} (h : ∀ u ∈ t :: ts, IsToken u) :
    splitOn ',' (' ' :: List.intercalate [',', ' '] (t :: ts)) = (t :: ts).map (' ' :: ·) := by
  induction ts generalizing t with
  | nil =>
    obtain ⟨ht, -⟩ := List.forall_mem_cons.1 h
    have noComma : ',' ∉ ' ' :: t := by simpa using ht.noComma
    simpa using splitOn_of_not_mem noComma
  | cons u us ih =>
    obtain ⟨ht, hus⟩ := List.forall_mem_cons.1 h
    have noComma : ',' ∉ ' ' :: t := by simpa using ht.noComma
    have split := splitOn_append_cons noComma (' ' :: List.intercalate [',', ' '] (u :: us))
    rw [ih hus] at split
    simpa [List.intercalate_cons_cons] using split

theorem operandTokens_intercalate {t : Text} {ts : List Text} (h : ∀ u ∈ t :: ts, IsToken u) :
    operandTokens (' ' :: List.intercalate [',', ' '] (t :: ts)) = t :: ts := by
  have someText : trim (' ' :: List.intercalate [',', ' '] (t :: ts)) ≠ [] := by
    obtain ⟨⟨hne, chars⟩, -⟩ := List.forall_mem_cons.1 h
    obtain ⟨c, hc⟩ := List.exists_mem_of_ne_nil t hne
    have inList : c ∈ ' ' :: List.intercalate [',', ' '] (t :: ts) := by
      cases ts <;> simp [List.intercalate_cons_cons, hc]
    intro blank
    have blankToo := (trim_eq_nil_iff _).1 blank c inList
    simp [(chars c hc).1] at blankToo
  have trimmed (u : Text) (hu : u ∈ t :: ts) : trim (' ' :: u) = u := by
    rw [trim_cons_of_blank rfl, trim_of_noBlank (h u hu).noBlank]
  rw [operandTokens, if_neg someText, splitOn_intercalate h, List.map_map]
  exact (List.map_congr_left trimmed).trans (List.map_id _)

/-! ### The characters of tokens -/

/-- The digits, the letters and `_` stand above every character that separates. -/
theorem not_separator_of_le {c : Char} (h : 48 ≤ c.toNat) :
    (isBlank c = false ∧ c ≠ ',') ∧ c ≠ '(' ∧ c ≠ '-' := by
  refine ⟨⟨?_, ?_⟩, ?_, ?_⟩
  · by_contra blank
    simp only [isBlank, Bool.or_eq_false_iff, decide_eq_false_iff_not, not_and_or, not_not] at blank
    obtain rfl | rfl := blank <;> revert h <;> decide
  all_goals
    rintro rfl
    revert h
    decide

theorem le_of_isDigit {c : Char} (h : isDigit c = true) : 48 ≤ c.toNat := by
  simp only [isDigit, Bool.and_eq_true, decide_eq_true_eq] at h
  exact h.1

theorem le_of_isLetter {c : Char} (h : isLetter c = true) : 65 ≤ c.toNat := by
  simp only [isLetter, Bool.or_eq_true, Bool.and_eq_true, decide_eq_true_eq] at h
  omega

/-! ### Numerals -/

theorem digitsValue_eq_some_iff {t : Text} {n : Nat} : digitsValue t = some n ↔
    t ≠ [] ∧ (∀ c ∈ t, isDigit c = true) ∧ t.foldl (fun n c => 10 * n + (c.toNat - 48)) 0 = n := by
  simp [digitsValue, and_assoc]

theorem decimalDigit : ∀ d < 10, isDigit (Char.ofNat (48 + d)) = true ∧ (Char.ofNat (48 + d)).toNat - 48 = d := by
  decide

theorem digitsValue_append {t : Text} {n d : Nat} (ht : digitsValue t = some n) (hd : d < 10) :
    digitsValue (t ++ [Char.ofNat (48 + d)]) = some (10 * n + d) := by
  obtain ⟨-, digits, value⟩ := digitsValue_eq_some_iff.1 ht
  obtain ⟨isDig, digit⟩ := decimalDigit d hd
  refine digitsValue_eq_some_iff.2 ⟨by simp, ?_, ?_⟩
  · exact List.forall_mem_append.2 ⟨digits, by simpa using isDig⟩
  · rw [List.foldl_append, value, List.foldl_cons, digit, List.foldl_nil]

theorem digitsValue_singleton {d : Nat} (hd : d < 10) : digitsValue [Char.ofNat (48 + d)] = some d := by
  obtain ⟨isDig, digit⟩ := decimalDigit d hd
  simp [digitsValue, isDig, digit]

/-- The bound on the digits written is no bound where it is the number itself. -/
theorem digitsValue_natDigits {k n : Nat} (h : n ≤ k) : digitsValue (natDigits k n) = some n := by
  induction k generalizing n with
  | zero =>
    obtain rfl := Nat.le_zero.1 h
    rfl
  | succ k ih =>
    rw [natDigits]
    split
    case isTrue small => exact digitsValue_singleton small
    case isFalse big =>
      rw [digitsValue_append (ih (by omega)) (Nat.mod_lt n (by decide)), Nat.div_add_mod]

/-- Without a minus sign in front a numeral is its digits. -/
theorem numeral_of_head {t : Text} (h : t.head? ≠ some '-') : 
    numeral t = (digitsValue t).map (Nat.cast : Nat → Int) := by
  unfold numeral
  split
  · exact absurd rfl h
  · cases digitsValue t <;> rfl

theorem numeral_minus {t : Text} {n : Nat} (h : digitsValue t = some n) :
    numeral ('-' :: t) = some (-(n : Int)) := by
  rw [numeral, h]
  rfl

theorem head?_ne_minus {t : Text} (h : ∀ c ∈ t, 48 ≤ c.toNat) : t.head? ≠ some '-' := fun head =>
  absurd (h '-' (List.mem_of_mem_head? head)) (by decide)

theorem natDigits_le (n : Nat) : ∀ c ∈ natDigits n n, 48 ≤ c.toNat := by
  obtain ⟨-, digits, -⟩ := digitsValue_eq_some_iff.1 (digitsValue_natDigits (Nat.le_refl n))
  exact fun c hc => le_of_isDigit (digits c hc)

theorem numeral_decimal (v : Int) : numeral (decimal v) = some v := by
  have digits := digitsValue_natDigits (Nat.le_refl v.natAbs)
  unfold decimal
  split
  case isTrue negative =>
    have value : -(v.natAbs : Int) = v := by omega
    rw [numeral_minus digits, value]
  case isFalse notNegative =>
    have value : (v.natAbs : Int) = v := by omega
    rw [numeral_of_head (head?_ne_minus (natDigits_le _)), digits, Option.map_some, value]

theorem mem_decimal {v : Int} {c : Char} (h : c ∈ decimal v) : c = '-' ∨ 48 ≤ c.toNat := by
  unfold decimal at h
  split at h
  · exact (List.mem_cons.1 h).imp_right (natDigits_le _ c)
  · exact Or.inr (natDigits_le _ c h)

theorem isToken_decimal (v : Int) : IsToken (decimal v) := by
  refine ⟨fun empty => ?_, fun c hc => ?_⟩
  · have value := numeral_decimal v
    rw [empty] at value
    cases value
  · obtain rfl | hle := mem_decimal hc
    · decide
    · exact (not_separator_of_le hle).1

theorem immediateOf_decimal {sg : Imm5Signed} {m : Mnemonic} {v : Int} (h : immInRange sg m v = true) :
    immediateOf sg m (decimal v) = some v := by
  simp [immediateOf, numeral_decimal, h]

/-! ### Registers and memory operands -/

theorem registerOf_registerText : ∀ r : RegIdx, registerOf (registerText r) = some r := by decide

theorem isToken_registerText (r : RegIdx) : IsToken (registerText r) := by
  have hr : r.toNat < 8 := r.isLt
  obtain ⟨digit, -⟩ := decimalDigit r.toNat (by omega)
  obtain ⟨noSeparator, -⟩ := not_separator_of_le (le_of_isDigit digit)
  refine ⟨by simp [registerText], ?_⟩
  simp only [registerText, List.forall_mem_cons]
  exact ⟨by decide, noSeparator, by simp⟩

/-- The token of a memory operand (R97). -/
def memoryText (v : Int) (r : RegIdx) : Text := decimal v ++ '(' :: registerText r ++ [')']

theorem isToken_memoryText (v : Int) (r : RegIdx) : IsToken (memoryText v r) := by
  obtain ⟨-, number⟩ := isToken_decimal v
  obtain ⟨-, register⟩ := isToken_registerText r
  refine ⟨by simp [memoryText], ?_⟩
  simp only [memoryText, List.forall_mem_append, List.forall_mem_cons]
  exact ⟨⟨number, by decide, register⟩, by decide, by simp⟩

theorem memoryOf_memoryText {sg : Imm5Signed} {m : Mnemonic} {v : Int} (h : immInRange sg m v = true)
    (r : RegIdx) : memoryOf sg m (memoryText v r) = some (v, r) := by
  have noParen : ∀ c ∈ decimal v, decide (c ≠ '(') = true := by
    intro c hc
    obtain rfl | hle := mem_decimal hc
    · decide
    · obtain ⟨-, paren, -⟩ := not_separator_of_le hle
      exact decide_eq_true paren
  have text : memoryText v r = decimal v ++ ['(', '$', Char.ofNat (48 + r.toNat), ')'] := by
    simp [memoryText, registerText]
  have number : (memoryText v r).takeWhile (fun c => decide (c ≠ '(')) = decimal v := by
    rw [text, List.takeWhile_append_of_pos noParen]
    simp
  have base : (memoryText v r).dropWhile (fun c => decide (c ≠ '(')) =
      ['(', '$', Char.ofNat (48 + r.toNat), ')'] := by
    rw [text, List.dropWhile_append_of_pos noParen]
    simp
  have register : registerOf ['$', Char.ofNat (48 + r.toNat)] = some r := registerOf_registerText r
  simp only [memoryOf, base, number, immediateOf_decimal h, register]

/-! ### Labels and targets -/

/-- An identifier begins with a letter or `_`, above the digits, and its characters are no separators. -/
theorem exists_cons_of_isIdent {t : Text} (h : isIdent t = true) :
    ∃ c cs, t = c :: cs ∧ 65 ≤ c.toNat ∧ ∀ d ∈ cs, 48 ≤ d.toNat := by
  cases t with
  | nil => cases h
  | cons c cs =>
    simp only [isIdent, Bool.and_eq_true, Bool.or_eq_true, decide_eq_true_eq, List.all_eq_true] at h
    obtain ⟨first, others⟩ := h
    refine ⟨c, cs, rfl, ?_, fun d hd => ?_⟩
    · obtain letter | rfl := first
      · exact le_of_isLetter letter
      · decide
    · obtain (letter | digit) | rfl := others d hd
      · have le := le_of_isLetter letter
        omega
      · exact le_of_isDigit digit
      · decide

theorem isIdent_chars {t : Text} (h : isIdent t = true) : ∀ c ∈ t, 48 ≤ c.toNat := by
  obtain ⟨c, cs, rfl, first, others⟩ := exists_cons_of_isIdent h
  exact List.forall_mem_cons.2 ⟨by omega, others⟩

theorem isToken_of_isIdent {t : Text} (h : isIdent t = true) : IsToken t := by
  refine ⟨?_, fun c hc => (not_separator_of_le (isIdent_chars h c hc)).1⟩
  rintro rfl
  cases h

theorem numeral_of_isIdent {t : Text} (h : isIdent t = true) : numeral t = none := by
  have noValue : digitsValue t = none := by
    obtain ⟨c, cs, rfl, first, -⟩ := exists_cons_of_isIdent h
    have notDigit : isDigit c = false := by simp [isDigit]; omega
    simp [digitsValue, notDigit]
  rw [numeral_of_head (head?_ne_minus (isIdent_chars h)), noValue, Option.map_none]

/-- What stands in a target's place (R98): a value in range or, where the mnemonic takes one, a label. -/
def TargetOk (sg : Imm5Signed) (r : Record) : Prop :=
  (r.jumpto = none ∧ immInRange sg r.mn r.imm = true) ∨
    ∃ n, r.jumpto = some n ∧ isIdent n = true ∧ r.mn.takesLabel = true ∧ r.imm = 0

theorem form_of_takesLabel {m : Mnemonic} (h : m.takesLabel = true) :
    operandForm m = .regTarget ∨ operandForm m = .target := by
  cases m
  case beqz | bnez | bltz | bgez | bgtz | blez => exact Or.inl rfl
  case j | jal => exact Or.inr rfl
  all_goals cases h

section
variable {sg : Imm5Signed} {r : Record}

theorem targetOf_targetText (h : TargetOk sg r) : targetOf sg r.mn (targetText r) = some (r.imm, r.jumpto) := by
  obtain ⟨hj, range⟩ | ⟨n, hj, ident, takes, zero⟩ := h
  · simp [targetOf, targetText, hj, immediateOf_decimal range]
  · simp [targetOf, targetText, hj, immediateOf, numeral_of_isIdent ident, takes, ident, zero]

theorem isToken_targetText (h : TargetOk sg r) : IsToken (targetText r) := by
  obtain ⟨hj, -⟩ | ⟨n, hj, ident, -⟩ := h
  · simpa [targetText, hj] using isToken_decimal r.imm
  · simpa [targetText, hj] using isToken_of_isIdent ident

/-- A form without a target has a value in its record. -/
theorem TargetOk.resolved (h : TargetOk sg r)
    (noTarget : operandForm r.mn ≠ .regTarget ∧ operandForm r.mn ≠ .target) :
    r.jumpto = none ∧ immInRange sg r.mn r.imm = true := by
  obtain resolved | ⟨n, -, -, takes, -⟩ := h
  · exact resolved
  · obtain form | form := form_of_takesLabel takes
    · exact absurd form noTarget.1
    · exact absurd form noTarget.2

end

theorem targetOk_of_wf {sg : Imm5Signed} {r : Record}
    (h : r.wf sg = true ∨ (r.labelWf = true ∧ ∀ n, r.jumpto = some n → isIdent n = true)) :
    r.fieldsOk = true ∧ TargetOk sg r := by
  obtain wf | ⟨wf, ident⟩ := h
  · obtain ⟨hj, range, fields⟩ := Record.wf_iff.1 wf
    exact ⟨fields, Or.inl ⟨hj, range⟩⟩
  · simp only [Record.labelWf, Bool.and_eq_true, decide_eq_true_eq, Option.isSome_iff_exists] at wf
    obtain ⟨⟨⟨⟨n, hj⟩, takes⟩, zero⟩, fields⟩ := wf
    exact ⟨fields, Or.inr ⟨n, hj, ident n hj, takes, zero⟩⟩

/-! ### Records -/

/-- The operand texts of a record, in the order of R99. -/
def operandTexts (r : Record) : List Text :=
  match operandForm r.mn with
  | .threeRegs => [registerText r.rd, registerText r.rs, registerText r.rt]
  | .twoRegsImm => [registerText r.rt, registerText r.rs, decimal r.imm]
  | .memory => [registerText r.rt, memoryText r.imm r.rs]
  | .regTarget => [registerText r.rs, targetText r]
  | .target => [targetText r]

theorem render_eq (r : Record) :
    render r = mnemonicText r.mn ++ ' ' :: List.intercalate [',', ' '] (operandTexts r) := by
  unfold render operandTexts
  cases operandForm r.mn <;> simp [List.intercalate_cons_cons, memoryText]

theorem isToken_operandTexts {sg : Imm5Signed} {r : Record} (h : TargetOk sg r) :
    ∀ t ∈ operandTexts r, IsToken t := by
  unfold operandTexts
  cases operandForm r.mn <;>
    simp [isToken_registerText, isToken_decimal, isToken_memoryText, isToken_targetText h]

/-! ### Mnemonics -/

theorem mnemonicOf_mnemonicText (m : Mnemonic) : mnemonicOf (mnemonicText m) = some m := by
  cases m <;> decide

theorem mnemonicText_ne_nil (m : Mnemonic) : mnemonicText m ≠ [] := by
  cases m <;> decide

theorem mnemonicText_noBlank (m : Mnemonic) : ∀ c ∈ mnemonicText m, isBlank c = false := by
  have noneBlank : (mnemonicText m).all (fun c => !isBlank c) = true := by cases m <;> rfl
  simpa using noneBlank

/-- A line of a mnemonic, a blank and operands is parsed by the operands of that mnemonic. -/
theorem parseInstr_mnemonicText (sg : Imm5Signed) (line step : Nat) (m : Mnemonic) (t : Text) :
    parseInstr sg line step (mnemonicText m ++ ' ' :: t) =
      parseOperands sg m line step (operandTokens (' ' :: t)) := by
  have noBlank := mnemonicText_noBlank m
  have name : ∀ c ∈ mnemonicText m, (!isBlank c) = true := fun c hc => by simp [noBlank c hc]
  have first : (mnemonicText m ++ ' ' :: t).takeWhile (fun c => !isBlank c) = mnemonicText m := by
    rw [List.takeWhile_append_of_pos name]
    simp [isBlank]
  have rest : (mnemonicText m ++ ' ' :: t).dropWhile (fun c => !isBlank c) = ' ' :: t := by
    rw [List.dropWhile_append_of_pos name]
    simp [isBlank]
  simp only [parseInstr, dropWhile_isBlank_append (mnemonicText_ne_nil m) noBlank, first, rest,
    mnemonicOf_mnemonicText]

/-! ### The obligations -/

/-- The format of each operand form (R99). -/
theorem format_eq (m : Mnemonic) : m.format =
    match operandForm m with
    | .threeRegs => .r
    | .twoRegsImm => .i
    | .memory => .i
    | .regTarget => .b
    | .target => .j := by
  cases m <;> rfl

/-- An operand that parses is handed on. -/
theorem need_some_bind {α β : Type} (line : Nat) (t : Text) (a : α) (f : α → Except Failure β) :
    (need line t (some a) >>= f) = f a := rfl

/-- The fields outside a form's format are 0 in a record (R14). -/
theorem fields_eq_zero {r : Record} (h : r.fieldsOk = true) :
    match operandForm r.mn with
    | .threeRegs => r.imm = 0
    | .twoRegsImm => r.rd = 0
    | .memory => r.rd = 0
    | .regTarget => r.rt = 0 ∧ r.rd = 0
    | .target => r.rs = 0 ∧ r.rt = 0 ∧ r.rd = 0 := by
  rw [Record.fieldsOk, format_eq] at h
  cases form : operandForm r.mn <;> simpa [form, and_assoc] using h

/-- Form by form: every operand is read back, and what is not written is 0. -/
theorem parseOperands_operandTexts {sg : Imm5Signed} {r : Record} (fields : r.fieldsOk = true)
    (target : TargetOk sg r) : parseOperands sg r.mn r.lineNo r.stepNo (operandTexts r) = .ok r := by
  have zero := fields_eq_zero fields
  have targetRead := targetOf_targetText target
  have resolved := target.resolved
  obtain ⟨m, line, step, rs, rt, rd, imm, jumpto⟩ := r
  unfold operandTexts parseOperands
  cases form : operandForm m <;> simp only [form] at zero
  case threeRegs =>
    obtain ⟨rfl, -⟩ := resolved (by simp [form])
    subst zero
    simp only [registerOf_registerText, need_some_bind]
    rfl
  case twoRegsImm =>
    obtain ⟨rfl, range⟩ := resolved (by simp [form])
    subst zero
    simp only [registerOf_registerText, immediateOf_decimal range, need_some_bind]
    rfl
  case memory =>
    obtain ⟨rfl, range⟩ := resolved (by simp [form])
    subst zero
    simp only [registerOf_registerText, memoryOf_memoryText range, need_some_bind]
    rfl
  case regTarget =>
    obtain ⟨rfl, rfl⟩ := zero
    simp only [registerOf_registerText, targetRead, need_some_bind]
    rfl
  case target =>
    obtain ⟨rfl, rfl, rfl⟩ := zero
    simp only [targetRead, need_some_bind]
    rfl

/-- Settles O56: the operand texts are split back apart and each is read as what it was written from. -/
theorem renderedInstructionsParseBack : Obligations.RenderedInstructionsParseBack := by
  intro sg r h
  obtain ⟨fields, target⟩ := targetOk_of_wf h
  obtain ⟨t, ts, texts⟩ : ∃ t ts, operandTexts r = t :: ts := by
    unfold operandTexts
    cases operandForm r.mn <;> exact ⟨_, _, rfl⟩
  have tokens := isToken_operandTexts target
  rw [texts] at tokens
  rw [render_eq, parseInstr_mnemonicText, texts, operandTokens_intercalate tokens, ← texts,
    parseOperands_operandTexts fields target]

/-- Settles O55: the five forms are matched with as many operands as their arity, and every other list is the
last case. -/
theorem wrongOperandCountsAreNamed : Obligations.WrongOperandCountsAreNamed := by
  intro sg m line st ops wrong
  unfold parseOperands
  split
  case h_6 => rfl
  all_goals
    rename_i form
    rw [form] at wrong
    exact absurd rfl wrong

end Sys2Proof.Asm
end

section
/-! PROOF. Pass 1 (spec/30_encoding.md R102 to R104): what one line does to it, and by induction over the lines
the step numbers, the records and the label table of a source.  O52 and O53 are assembled from these. -/

namespace Sys2Proof.Asm

/-! ### A line's label and body -/

/-- The line number tells only where a bad label stands: a line that splits does so into its label and body. -/
theorem splitLabel_eq_ok {line : Nat} {t rest : Text} {name : Option Text}
    (h : splitLabel line t = .ok (name, rest)) (line' : Nat) :
    splitLabel line' t = .ok (lineLabel t, lineBody t) ∧ lineLabel t = name ∧ lineBody t = rest := by
  have anywhere (l : Nat) : splitLabel l t = .ok (name, rest) := by
    unfold splitLabel at h ⊢
    split at h
    · exact h
    · dsimp only at h ⊢
      split at h
      case isTrue ident =>
        cases h
        rw [if_pos ident]
      case isFalse => cases h
  have label : lineLabel t = name := by rw [lineLabel, anywhere 0]
  have body : lineBody t = rest := by rw [lineBody, anywhere 0]
  rw [label, body]
  exact ⟨anywhere line', rfl, rfl⟩

theorem splitLabel_of_lineLabel {t n : Text} (h : lineLabel t = some n) (line : Nat) :
    splitLabel line t = .ok (some n, lineBody t) := by
  unfold lineLabel at h
  split at h
  case h_1 name rest splits =>
    obtain ⟨here, label, -⟩ := splitLabel_eq_ok splits line
    rw [here, label, h]
  case h_2 => cases h

/-- A blank line has no colon. -/
theorem splitLabel_of_blank {t : Text} (h : trim t = []) (line : Nat) : splitLabel line t = .ok (none, t) := by
  have noColon : t.dropWhile (fun c => decide (c ≠ ':')) = [] := by
    refine List.dropWhile_eq_nil_iff.2 fun c hc => decide_eq_true ?_
    rintro rfl
    exact absurd ((trim_eq_nil_iff t).1 h _ hc) (by decide)
  simp only [splitLabel, noColon]

/-! ### The label table -/

theorem Labels.find_cons (n name : Text) (step : Nat) (ls : Labels) :
    Labels.find ((n, step) :: ls) name = if name = n then some step else ls.find name := by
  by_cases same : name = n
  · simp [Labels.find, same]
  · have differ : (name == n) = false := by simpa using same
    rw [if_neg same, Labels.find, List.lookup_cons, differ, Labels.find]

theorem Labels.define_of_found {ls : Labels} {n : Text} {v : Nat} (h : ls.find n = some v) (line step : Nat) :
    ls.define line step (some n) = .error (.syntaxException line) := by
  simp [Labels.define, h]

/-- A definition that succeeds adds the name, which the table did not have, or there was none. -/
theorem Labels.define_eq_ok {ls ls' : Labels} {line step : Nat} {name : Option Text}
    (h : ls.define line step name = .ok ls') :
    (name = none ∧ ls' = ls) ∨ ∃ n, name = some n ∧ ls.find n = none ∧ ls' = (n, step) :: ls := by
  cases name with
  | none =>
    cases h
    exact Or.inl ⟨rfl, rfl⟩
  | some n =>
    cases absent : ls.find n with
    | some v =>
      rw [Labels.define_of_found absent] at h
      cases h
    | none =>
      simp only [Labels.define, absent, Option.isSome_none, Bool.false_eq_true, if_false] at h
      cases h
      exact Or.inr ⟨n, rfl, absent, rfl⟩

/-- After a definition the table has what it had and the name defined. -/
theorem Labels.find_define_iff {ls ls' : Labels} {line step : Nat} {name : Option Text}
    (h : ls.define line step name = .ok ls') (n : Text) (v : Nat) :
    ls'.find n = some v ↔ ls.find n = some v ∨ (name = some n ∧ v = step) := by
  obtain ⟨rfl, rfl⟩ | ⟨m, rfl, absent, rfl⟩ := Labels.define_eq_ok h
  · simp
  · rw [Labels.find_cons]
    by_cases same : n = m
    · subst same
      simp [absent, eq_comm]
    · simp [same, Ne.symm same]

theorem Labels.nodup_define {ls ls' : Labels} {line step : Nat} {name : Option Text}
    (h : ls.define line step name = .ok ls') (nodup : (ls.map Prod.fst).Nodup) : (ls'.map Prod.fst).Nodup := by
  obtain ⟨-, rfl⟩ | ⟨m, -, absent, rfl⟩ := Labels.define_eq_ok h
  · exact nodup
  · refine List.nodup_cons.2 ⟨fun listed => ?_, nodup⟩
    obtain ⟨c, hc, rfl⟩ := List.mem_map.1 listed
    have other := List.lookup_eq_none_iff.1 absent c hc
    simp at other

/-! ### One line of pass 1 -/

theorem parseOperands_position {sg : Imm5Signed} {m : Mnemonic} {line step : Nat} {ops : List Text} {r : Record}
    (h : parseOperands sg m line step ops = .ok r) : r.lineNo = line ∧ r.stepNo = step := by
  unfold parseOperands at h
  split at h
  case h_1 | h_2 =>
    simp only [bind_eq_ok_iff] at h
    obtain ⟨_, -, _, -, _, -, built⟩ := h
    cases built
    exact ⟨rfl, rfl⟩
  case h_3 | h_4 =>
    simp only [bind_eq_ok_iff] at h
    obtain ⟨_, -, _, -, built⟩ := h
    cases built
    exact ⟨rfl, rfl⟩
  case h_5 =>
    simp only [bind_eq_ok_iff] at h
    obtain ⟨_, -, built⟩ := h
    cases built
    exact ⟨rfl, rfl⟩
  case h_6 => cases h

/-- A record holds the line and step number it was parsed at. -/
theorem parseInstr_position {sg : Imm5Signed} {line step : Nat} {t : Text} {r : Record}
    (h : parseInstr sg line step t = .ok r) : r.lineNo = line ∧ r.stepNo = step := by
  unfold parseInstr at h
  dsimp only at h
  split at h
  · cases h
  · exact parseOperands_position h

theorem hasInstr_eq_false_iff {t : Text} : hasInstr t = false ↔ trim (lineBody t) = [] := by
  simp [hasInstr]

/-- The records a line gives (R102): none, or the one of its instruction. -/
def LineRecords (sg : Imm5Signed) (line step : Nat) (t : Text) (rs : List Record) : Prop :=
  (hasInstr t = false ∧ rs = []) ∨
    (hasInstr t = true ∧ ∃ r, parseInstr sg line step (lineBody t) = .ok r ∧ rs = [r])

section
variable {sg : Imm5Signed} {line step : Nat} {ls : Labels} {t : Text} {ts : List Text}

theorem LineRecords.length_eq {rs : List Record} (h : LineRecords sg line step t rs) :
    rs.length = if hasInstr t then 1 else 0 := by
  obtain ⟨noInstr, rfl⟩ | ⟨isInstr, r, -, rfl⟩ := h
  · simp [noInstr]
  · simp [isInstr]

/-- A blank line is one whose split and definition do nothing, so pass 1 may be read without its blank test. -/
theorem pass1From_cons (sg : Imm5Signed) (line step : Nat) (ls : Labels) (t : Text) (ts : List Text) :
    pass1From sg line step ls (t :: ts) = (do
      let lr ← splitLabel line t
      let ls' ← ls.define line step lr.1
      if trim lr.2 = [] then pass1From sg (line + 1) step ls' ts
      else do
        let r ← parseInstr sg line step lr.2
        let p ← pass1From sg (line + 1) (step + 1) ls' ts
        return ⟨p.labels, r :: p.records⟩) := by
  rw [pass1From]
  split
  case isTrue blank =>
    rw [splitLabel_of_blank blank]
    simp [bind, Except.bind, Labels.define, blank]
  case isFalse => rfl

/-- A line that splits, whose label is new and whose instruction parses, goes on with the lines after it. -/
theorem pass1From_cons_of_line {ls' : Labels} {rs : List Record}
    (splits : splitLabel line t = .ok (lineLabel t, lineBody t))
    (defined : ls.define line step (lineLabel t) = .ok ls') (records : LineRecords sg line step t rs) :
    pass1From sg line step ls (t :: ts) =
      (pass1From sg (line + 1) (step + rs.length) ls' ts).map fun q => ⟨q.labels, rs ++ q.records⟩ := by
  rw [pass1From_cons, splits]
  simp only [bind, Except.bind, defined]
  obtain ⟨noInstr, rfl⟩ | ⟨isInstr, r, parsed, rfl⟩ := records
  · rw [if_pos (hasInstr_eq_false_iff.1 noInstr)]
    simp only [List.length_nil, Nat.add_zero, List.nil_append]
    cases pass1From sg (line + 1) step ls' ts <;> rfl
  · have body : trim (lineBody t) ≠ [] := by simpa [hasInstr] using isInstr
    simp only [if_neg body, parsed]
    rw [List.length_singleton]
    cases pass1From sg (line + 1) (step + 1) ls' ts <;> rfl

/-- Pass 1 that succeeds was such a line, then the lines after it. -/
theorem pass1From_cons_eq_ok {p : Pass1} (h : pass1From sg line step ls (t :: ts) = .ok p) :
    ∃ ls' rs q, splitLabel line t = .ok (lineLabel t, lineBody t) ∧
      ls.define line step (lineLabel t) = .ok ls' ∧ LineRecords sg line step t rs ∧
      pass1From sg (line + 1) (step + rs.length) ls' ts = .ok q ∧ p = ⟨q.labels, rs ++ q.records⟩ := by
  rw [pass1From_cons] at h
  simp only [bind_eq_ok_iff] at h
  obtain ⟨⟨name, rest⟩, splits, ls', defined, after⟩ := h
  obtain ⟨here, rfl, rfl⟩ := splitLabel_eq_ok splits line
  split at after
  case isTrue bodyBlank =>
    exact ⟨ls', [], p, here, defined, Or.inl ⟨hasInstr_eq_false_iff.2 bodyBlank, rfl⟩, after, rfl⟩
  case isFalse bodyNotBlank =>
    simp only [bind_eq_ok_iff] at after
    obtain ⟨r, parsed, q, passed, built⟩ := after
    cases built
    have isInstr : hasInstr t = true := by simpa [hasInstr] using bodyNotBlank
    exact ⟨ls', [r], q, here, defined, Or.inr ⟨isInstr, r, parsed, rfl⟩, passed, rfl⟩

end

/-! ### A whole source -/

theorem instrsBefore_succ (t : Text) (ts : List Text) (k : Nat) :
    instrsBefore (t :: ts) (k + 1) = instrsBefore ts k + if hasInstr t then 1 else 0 := by
  rw [instrsBefore, List.take_succ_cons, List.countP_cons, instrsBefore]

theorem instrsBefore_le (src : List Text) (k : Nat) : instrsBefore src k ≤ src.countP hasInstr :=
  (List.take_sublist k src).countP_le

section
variable {sg : Imm5Signed} {line step : Nat} {ls : Labels} {src : List Text} {p : Pass1}

theorem length_records_pass1From (h : pass1From sg line step ls src = .ok p) :
    p.records.length = src.countP hasInstr := by
  induction src generalizing line step ls p with
  | nil =>
    cases h
    rfl
  | cons t ts ih =>
    obtain ⟨ls', rs, q, -, -, records, after, rfl⟩ := pass1From_cons_eq_ok h
    rw [List.length_append, ih after, records.length_eq, List.countP_cons, Nat.add_comm]

/-- The steps are counted on from the first. -/
theorem stepNo_pass1From (h : pass1From sg line step ls src = .ok p) {k : Nat} {r : Record}
    (hr : p.records[k]? = some r) : r.stepNo = step + k := by
  induction src generalizing line step ls p k with
  | nil =>
    cases h
    cases hr
  | cons t ts ih =>
    obtain ⟨ls', rs, q, -, -, records, after, rfl⟩ := pass1From_cons_eq_ok h
    obtain ⟨-, rfl⟩ | ⟨-, r', parsed, rfl⟩ := records
    · exact ih after hr
    · cases k with
      | zero =>
        cases hr
        obtain ⟨-, hstep⟩ := parseInstr_position parsed
        exact hstep
      | succ k =>
        have later := ih after (k := k) hr
        rw [List.length_singleton] at later
        omega

/-- Each line's instruction is the record at the number of instructions before it. -/
theorem record_pass1From (h : pass1From sg line step ls src = .ok p) {k : Nat} {t : Text}
    (ht : src[k]? = some t) (hi : hasInstr t = true) : ∃ r, p.records[instrsBefore src k]? = some r ∧
      parseInstr sg (line + k) (step + instrsBefore src k) (lineBody t) = .ok r := by
  induction src generalizing line step ls p k with
  | nil => cases ht
  | cons u us ih =>
    obtain ⟨ls', rs, q, -, -, records, after, rfl⟩ := pass1From_cons_eq_ok h
    cases k with
    | zero =>
      cases ht
      obtain ⟨noInstr, -⟩ | ⟨-, r, parsed, rfl⟩ := records
      · simp [hi] at noInstr
      · exact ⟨r, rfl, parsed⟩
    | succ k =>
      obtain ⟨r, hr, parsed⟩ := ih after (k := k) ht
      rw [instrsBefore_succ, ← records.length_eq]
      refine ⟨r, ?_, ?_⟩
      · rw [List.getElem?_append_right (by omega), Nat.add_sub_cancel, hr]
      · rw [← parsed]
        congr 1 <;> omega

/-- What the table ends with: what it began with, and for each label the number of instructions before it. -/
theorem find_pass1From_iff (h : pass1From sg line step ls src = .ok p) (n : Text) (v : Nat) :
    p.labels.find n = some v ↔ ls.find n = some v ∨
      ∃ k t, src[k]? = some t ∧ lineLabel t = some n ∧ v = step + instrsBefore src k := by
  induction src generalizing line step ls p with
  | nil =>
    cases h
    simp
  | cons u us ih =>
    obtain ⟨ls', rs, q, -, defined, records, after, rfl⟩ := pass1From_cons_eq_ok h
    refine (ih after).trans ?_
    rw [Labels.find_define_iff defined, or_assoc]
    refine or_congr_right ?_
    constructor
    · rintro (⟨label, rfl⟩ | ⟨k, t, ht, label, rfl⟩)
      · exact ⟨0, u, rfl, label, rfl⟩
      · refine ⟨k + 1, t, ht, label, ?_⟩
        rw [instrsBefore_succ, ← records.length_eq]
        omega
    · rintro ⟨k, t, ht, label, hv⟩
      cases k with
      | zero =>
        cases ht
        exact Or.inl ⟨label, hv⟩
      | succ k =>
        refine Or.inr ⟨k, t, ht, label, ?_⟩
        rw [hv, instrsBefore_succ, ← records.length_eq]
        omega

theorem nodup_pass1From (h : pass1From sg line step ls src = .ok p) (nodup : (ls.map Prod.fst).Nodup) :
    (p.labels.map Prod.fst).Nodup := by
  induction src generalizing line step ls p with
  | nil =>
    cases h
    exact nodup
  | cons t ts ih =>
    obtain ⟨ls', rs, q, -, defined, -, after, rfl⟩ := pass1From_cons_eq_ok h
    exact ih (p := q) after (Labels.nodup_define defined nodup)

/-- A failure after lines that pass is the failure of the whole. -/
theorem pass1From_append_eq_error {rest : List Text} {f : Failure} (h : pass1From sg line step ls src = .ok p)
    (fails : pass1From sg (line + src.length) (step + p.records.length) p.labels rest = .error f) :
    pass1From sg line step ls (src ++ rest) = .error f := by
  induction src generalizing line step ls p with
  | nil =>
    cases h
    exact fails
  | cons t ts ih =>
    obtain ⟨ls', rs, q, splits, defined, records, after, rfl⟩ := pass1From_cons_eq_ok h
    have failsAfter : pass1From sg (line + 1 + ts.length) (step + rs.length + q.records.length) q.labels rest =
        .error f := by
      rw [← fails, List.length_cons, List.length_append]
      congr 1 <;> omega
    rw [List.cons_append, pass1From_cons_of_line splits defined records, ih after failsAfter]
    rfl

/-- A line that defines a name the table has fails pass 1, whatever its body and the lines after it. -/
theorem pass1From_of_redefined {t n : Text} {ts : List Text} {v : Nat} (label : lineLabel t = some n)
    (found : ls.find n = some v) : pass1From sg line step ls (t :: ts) = .error (.syntaxException line) := by
  rw [pass1From_cons, splitLabel_of_lineLabel label]
  simp [bind, Except.bind, Labels.define_of_found found]

end

/-! ### The obligations -/

/-- Settles O52: by the records and the label table of a whole source. -/
theorem stepNumbersCountInstructions : Obligations.StepNumbersCountInstructions := by
  intro sg src p h
  refine ⟨fun k r hr => ?_, length_records_pass1From h, fun k t ht hi => ?_, fun k t n ht label => ?_,
    fun n v hv => ?_⟩
  · rw [stepNo_pass1From h hr, Nat.zero_add]
  · obtain ⟨r, hr, parsed⟩ := record_pass1From h ht hi
    rw [Nat.zero_add, Nat.add_comm] at parsed
    obtain ⟨hline, -⟩ := parseInstr_position parsed
    exact ⟨r, hr, hline, parsed⟩
  · exact (find_pass1From_iff h n _).2 (Or.inr ⟨k, t, ht, label, (Nat.zero_add _).symm⟩)
  · obtain absent | ⟨k, t, ht, label, rfl⟩ := (find_pass1From_iff h n v).1 hv
    · cases absent
    · rw [Nat.zero_add, length_records_pass1From h]
      exact ⟨instrsBefore_le src k, k, t, ht, label, rfl⟩

/-- Settles O53: definitions keep the names apart, and the lines before a second definition leave its name in the
table. -/
theorem labelsAreDefinedOnce : Obligations.LabelsAreDefinedOnce := by
  refine ⟨fun sg src p h => nodup_pass1From h List.nodup_nil, fun ls line st n v found =>
    Labels.define_of_found found line st, fun sg src p j k t u n before ht hu first second passes => ?_⟩
  have inTake : (src.take k)[j]? = some t := by rw [List.getElem?_take_of_lt before, ht]
  have found : p.labels.find n = some _ := (find_pass1From_iff passes n _).2 (Or.inr ⟨j, t, inTake, first, rfl⟩)
  obtain ⟨hk, rfl⟩ := List.getElem?_eq_some_iff.1 hu
  have fails : pass1From sg (1 + (src.take k).length) (0 + p.records.length) p.labels
      (src[k] :: src.drop (k + 1)) = .error (.syntaxException (k + 1)) := by
    rw [pass1From_of_redefined second found, List.length_take_of_le hk.le, Nat.add_comm]
  rw [pass1, ← List.take_append_drop k src, List.drop_eq_getElem_cons hk]
  exact pass1From_append_eq_error passes fails

end Sys2Proof.Asm
end
